-- ==== Sys2Proof/Word.lean ====
section
/-! DEFINITION. The bit-field widths the spec fixes (00_scope.md R7, R9, R10). Every value is unsigned. -/

namespace Sys2Proof

/-- One operation word, bits 39..0 (30_encoding.md R70). -/
abbrev OpWord := BitVec 40

/-- A status byte, an ascii code or a table code (R7). -/
abbrev Byte := BitVec 8

/-- `ticks_since_last_edge: u32` (R7). -/
abbrev Ticks := BitVec 32

/-- The 24-bit game-key field (R7). -/
abbrev GameKeys := BitVec 24

/-- A row of the Key Matrix, column c at bit c (10_state.md R33). -/
abbrev Row := BitVec 16

/-- The 41-bit word form of a Decoded Packet (30_encoding.md R90). -/
abbrev PacketWord := BitVec 41

end Sys2Proof
end

