-- ==== Sys2Proof/Syntax.lean ====
section
/-! DEFINITION. The six operations of 30_encoding.md R71, the two agents that apply them (00_scope.md R6), and an operation
word as it is offered to the block. -/

namespace Sys2Proof

/-- The two execution contexts (R6). -/
inductive Agent where
  /-- the asynchronous edge-interrupt context: applies EDGE -/
  | edge
  /-- the cooperative polling context: applies every other operation -/
  | poll
  deriving DecidableEq, Repr

/-- The polarity of an edge (10_state.md R22; in an EDGE word r = 1 is rising, R72). -/
inductive Polarity where
  | falling
  | rising
  deriving DecidableEq, Repr

/-- One constructor per row of spec/opcode_table.json. Every operand has exactly the width of its field, so every term is a
structurally valid operation (R79). -/
inductive Instr where
  /-- EDGE: polarity r and ticks t (R72). -/
  | edge (pol : Polarity) (t : Ticks)
  /-- POLL (R73). -/
  | poll
  /-- READ_ROW: the row index i, 0..31 (R74). -/
  | readRow (i : BitVec 5)
  /-- INIT (R75). -/
  | init
  /-- HANDLE_A: status byte st and ascii byte a (R76). -/
  | handleA (st a : Byte)
  /-- HANDLE_B: the game-key field g (R77). -/
  | handleB (g : GameKeys)
  deriving DecidableEq, Repr

/-- An operation word together with the agent that offers it to the block (43_host_ops.md R205). -/
structure Offer where
  agent : Agent
  word  : OpWord
  deriving DecidableEq, Repr

end Sys2Proof
end

