-- ==== Sys2Proof/WellFormed.lean ====
section
/-! DEFINITION. Which 40-bit words spell an operation (30_encoding.md R78) and which agent may offer them (43_host_ops.md R205).
The operands of `Instr` have the widths of their fields, so the only ill-formed terms are words and offers. The table is the
match, mask and agent columns of spec/opcode_table.json; the decoder reads fields instead and is proved to agree. -/

namespace Sys2Proof

/-- One row of the opcode table: a word `w` has this format when `w &&& mask = pattern`. -/
structure Format where
  mnemonic : String
  pattern  : OpWord
  mask     : OpWord
  agent    : Agent
  deriving DecidableEq, Repr

/-- spec/opcode_table.json. -/
def formats : List Format :=
  [ ⟨"EDGE",     0x1000000000, 0xFE00000000, .edge⟩,
    ⟨"POLL",     0x2000000000, 0xFFFFFFFFFF, .poll⟩,
    ⟨"READ_ROW", 0x3000000000, 0xFFFFFFFFE0, .poll⟩,
    ⟨"INIT",     0x4000000000, 0xFFFFFFFFFF, .poll⟩,
    ⟨"HANDLE_A", 0x5000000000, 0xFFFFFF0000, .poll⟩,
    ⟨"HANDLE_B", 0x6000000000, 0xFFFF000000, .poll⟩ ]

/-- The word has the row's fixed bits. -/
def Format.fits (f : Format) (w : OpWord) : Bool := w &&& f.mask == f.pattern

/-- The word spells an operation: the negation of R78's "ill-formed". -/
def wordWellFormed (w : OpWord) : Bool := formats.any fun f => f.fits w

/-- The word spells an operation of the agent that offers it (R205). -/
def Offer.wellFormed (o : Offer) : Bool := formats.any fun f => f.fits o.word && f.agent == o.agent

/-- Why a word is refused, by name (R78, R205). -/
inductive IllFormed where
  /-- opcode 0x0 or 0x7..0xF -/
  | reservedOpcode
  /-- EDGE with a bit of w[35:33] set -/
  | edgeFixedBits
  /-- POLL with a bit of w[35:0] set -/
  | pollFixedBits
  /-- READ_ROW with a bit of w[35:5] set -/
  | readRowFixedBits
  /-- INIT with a bit of w[35:0] set -/
  | initFixedBits
  /-- HANDLE_A with a bit of w[35:16] set -/
  | handleAFixedBits
  /-- HANDLE_B with a bit of w[35:24] set -/
  | handleBFixedBits
  /-- an EDGE word offered by the poll agent, or a poll-agent word offered by the edge agent -/
  | wrongAgent
  deriving DecidableEq, Repr

end Sys2Proof
end

