-- ==== Sys2Proof/Decode.lean ====
section
/-! DEFINITION. The decoder of operation words (30_encoding.md R70-R79, 43_host_ops.md R205), total on all 40-bit words and
refusing by name, and the encoder written from the same formats. -/

namespace Sys2Proof

/-- `w[39:36]` (R70). -/
def opcodeOf (w : OpWord) : BitVec 4 := w.extractLsb' 36 4

/-- r = 1 is a rising edge (R72). -/
def polarityOfBit (r : Bool) : Polarity := if r then .rising else .falling

/-- The bit r that spells a polarity (R72). -/
def bitOfPolarity (pol : Polarity) : Bool := match pol with
  | .falling => false
  | .rising => true

/-- EDGE: `0001 000 r t` (R72). -/
def decodeEdge (w : OpWord) : Except IllFormed Instr :=
  if w.extractLsb' 33 3 = 0 then .ok (.edge (polarityOfBit (w.getLsbD 32)) (w.extractLsb' 0 32)) else .error .edgeFixedBits

/-- POLL: `0010` and 36 zeros (R73). -/
def decodePoll (w : OpWord) : Except IllFormed Instr :=
  if w.extractLsb' 0 36 = 0 then .ok .poll else .error .pollFixedBits

/-- READ_ROW: `0011`, 31 zeros, `i` (R74). -/
def decodeReadRow (w : OpWord) : Except IllFormed Instr :=
  if w.extractLsb' 5 31 = 0 then .ok (.readRow (w.extractLsb' 0 5)) else .error .readRowFixedBits

/-- INIT: `0100` and 36 zeros (R75). -/
def decodeInit (w : OpWord) : Except IllFormed Instr :=
  if w.extractLsb' 0 36 = 0 then .ok .init else .error .initFixedBits

/-- HANDLE_A: `0101`, 20 zeros, `st`, `a` (R76). -/
def decodeHandleA (w : OpWord) : Except IllFormed Instr :=
  if w.extractLsb' 16 20 = 0 then .ok (.handleA (w.extractLsb' 8 8) (w.extractLsb' 0 8)) else .error .handleAFixedBits

/-- HANDLE_B: `0110`, 12 zeros, `g` (R77). -/
def decodeHandleB (w : OpWord) : Except IllFormed Instr :=
  if w.extractLsb' 24 12 = 0 then .ok (.handleB (w.extractLsb' 0 24)) else .error .handleBFixedBits

/-- The opcode map of R71; every other opcode is reserved (R78). -/
def decode (w : OpWord) : Except IllFormed Instr :=
  if opcodeOf w = 0x1 then decodeEdge w
  else if opcodeOf w = 0x2 then decodePoll w
  else if opcodeOf w = 0x3 then decodeReadRow w
  else if opcodeOf w = 0x4 then decodeInit w
  else if opcodeOf w = 0x5 then decodeHandleA w
  else if opcodeOf w = 0x6 then decodeHandleB w
  else .error .reservedOpcode

/-- The agent column of R71. -/
def Instr.agent (i : Instr) : Agent := match i with
  | .edge _ _ => .edge
  | .poll => .poll
  | .readRow _ => .poll
  | .init => .poll
  | .handleA _ _ => .poll
  | .handleB _ => .poll

/-- Decoding of an offered word: an operation of the other agent is refused like an ill-formed word (R205). -/
def decodeOffer (o : Offer) : Except IllFormed Instr :=
  match decode o.word with
  | .ok i => if i.agent = o.agent then .ok i else .error .wrongAgent
  | .error e => .error e

/-- The word of an operation (R72-R77). -/
def encode (i : Instr) : OpWord := match i with
  | .edge pol t => 0x1#4 ++ 0#3 ++ BitVec.ofBool (bitOfPolarity pol) ++ t
  | .poll => 0x2#4 ++ 0#36
  | .readRow r => 0x3#4 ++ 0#31 ++ r
  | .init => 0x4#4 ++ 0#36
  | .handleA st a => 0x5#4 ++ 0#20 ++ st ++ a
  | .handleB g => 0x6#4 ++ 0#12 ++ g

/-- An operation as its agent offers it (R205). -/
def Instr.offer (i : Instr) : Offer := ⟨i.agent, encode i⟩

/-- The agent that may offer a word, by its opcode (R71); a reserved opcode spells no operation of either agent, and is put
to the poll agent, as in the vectors RF-1 to RF-3 of 95_test_vectors.md. -/
def offeringAgent (w : OpWord) : Agent := if opcodeOf w = 0x1 then .edge else .poll

/-- The 40-bit word with the low `nbits` bits of `w`. -/
def tableWord (nbits w : Nat) : OpWord := BitVec.ofNat 40 (w % 2 ^ nbits)

/-- What the decoder reads from a table row's bits. An operation is one 40-bit word (R70), so bits above 39 spell nothing:
such a number is not an operation word (log entry 8). -/
def decodeTableWord (nbits w : Nat) : Option Instr :=
  if w % 2 ^ nbits < 2 ^ 40 then
    match decode (tableWord nbits w) with
    | .ok i => some i
    | .error _ => none
  else none

end Sys2Proof
end

