-- ==== Sys2Proof/Config.lean ====
section
/-! DEFINITION. The implementation parameters of 00_scope.md R8: their types, their constraints, and the
constant that stands for the tables the source does not give. No operation writes a parameter (10_state.md R39);
State carries them as read-only data (log entry 5), so that a statement over all states holds for every argument. -/

namespace Sys2Proof.Config

/-- A closed interval of ticks `[lo, hi]` (30_encoding.md R86). -/
structure Window where
  lo : Ticks
  hi : Ticks
  deriving DecidableEq, Repr, Inhabited

/-- `lo <= hi` (R8). -/
def Window.ordered (w : Window) : Bool := decide (w.lo ≤ w.hi)

/-- No tick lies in both windows; for ordered windows this is the comparison of their ends. -/
def Window.disjoint (v w : Window) : Bool := decide (v.hi < w.lo) || decide (w.hi < v.lo)

/-- WINDOWS: the nine windows of R86, by name. -/
structure Windows where
  aHdrLow   : Window
  aHdrHigh  : Window
  bHdrLow   : Window
  bHdrHigh  : Window
  bitLow    : Window
  aBit0High : Window
  aBit1High : Window
  bBit0High : Window
  bBit1High : Window
  deriving DecidableEq, Repr, Inhabited

/-- The constraint R8 sets on WINDOWS: each window ordered, the two header-low windows disjoint. -/
def Windows.conforming (w : Windows) : Bool :=
  w.aHdrLow.ordered && w.aHdrHigh.ordered && w.bHdrLow.ordered && w.bHdrHigh.ordered && w.bitLow.ordered &&
    w.aBit0High.ordered && w.aBit1High.ordered && w.bBit0High.ordered && w.bBit1High.ordered &&
    w.aHdrLow.disjoint w.bHdrLow

/-- The lookup tables of R8 as plain data. A partial function on codes is the list of its entries in rising order
of code, so that equal functions are equal lists (log entry 6); KANA_MAP's entry (r, c) stands at index 16 r + c. -/
structure Tables where
  gameBit     : List (Byte × Fin 24)
  kana        : Vector Byte 64
  tenkey      : List (Byte × Byte)
  ext         : List (Byte × Fin 10)
  numpadEnter : Byte
  deriving DecidableEq, Repr, Inhabited

/-- The domain of a table of entries. -/
def keys {α : Type} (t : List (Byte × α)) : List Byte := t.map Prod.fst

/-- Canonical form: the codes strictly rise. -/
def rising {α : Type} (t : List (Byte × α)) : Bool := decide ((keys t).Pairwise (· < ·))

/-- R8 on GAME_BIT: the codes 0x1B, 0x0D and 0x09 have a game bit. -/
def Tables.gameBitOk (t : Tables) : Bool :=
  rising t.gameBit && [0x1B, 0x0D, 0x09].all fun c => (keys t.gameBit).contains c

/-- The codes 0x2A..0x39, which TENKEY_MAP's domain contains (R8). -/
def tenkeyCodes : List Byte :=
  [0x2A, 0x2B, 0x2C, 0x2D, 0x2E, 0x2F, 0x30, 0x31, 0x32, 0x33, 0x34, 0x35, 0x36, 0x37, 0x38, 0x39]

/-- R8 on TENKEY_MAP: exactly 17 codes, 0x2A..0x39 among them; injective; no image in 0x30..0x39. -/
def Tables.tenkeyOk (t : Tables) : Bool :=
  rising t.tenkey && t.tenkey.length == 17 && (tenkeyCodes.all fun c => (keys t.tenkey).contains c) &&
    decide ((t.tenkey.map Prod.snd).Nodup) &&
    (t.tenkey.map Prod.snd).all fun r => !(decide (0x30 ≤ r) && decide (r ≤ 0x39))

/-- R8 on EXT_MAP and NUMPAD_ENTER_CODE: EXT_MAP's domain is disjoint from TENKEY_MAP's and holds NUMPAD_ENTER_CODE. -/
def Tables.extOk (t : Tables) : Bool :=
  rising t.ext && ((keys t.ext).all fun c => !(keys t.tenkey).contains c) && (keys t.ext).contains t.numpadEnter

/-- Every constraint R8 sets on the tables. -/
def Tables.conforming (t : Tables) : Bool := t.gameBitOk && t.tenkeyOk && t.extOk

/-- All parameters together: the argument of the model. -/
structure Params where
  windows : Windows
  tables  : Tables
  deriving DecidableEq, Repr, Inhabited

/-- The constraints of R8. -/
def Params.conforming (p : Params) : Bool := p.windows.conforming && p.tables.conforming

/-- EXCFG of 95_test_vectors.md section 0: one set of tables that meets R8, NOT the keyboard's tables. It shows that the
constraints can be met, and the tests run under it; no meaning uses it. -/
def excfg : Tables where
  gameBit := [(0x09, 2), (0x0D, 1), (0x1B, 0), (0x45, 5), (0x51, 3), (0x57, 4)]
  kana := #v[
    0xA0, 0xA1, 0xA2, 0xA3, 0xA4, 0xA5, 0xA6, 0xA7, 0xA8, 0xA9, 0xAA, 0xAB, 0xAC, 0xAD, 0xAE, 0xAF,
    0xB0, 0xB1, 0xB2, 0xB3, 0xB4, 0xB5, 0xB6, 0xB7, 0xB8, 0xB9, 0xBA, 0xBB, 0xBC, 0xBD, 0xBE, 0xBF,
    0xB1, 0x51, 0xC2, 0xC3, 0xC4, 0xC5, 0xC6, 0xC7, 0xC8, 0xC9, 0xCA, 0xCB, 0xCC, 0xCD, 0xCE, 0xCF,
    0xD0, 0xD1, 0xD2, 0xD3, 0xD4, 0xD5, 0xD6, 0xD7, 0xD8, 0xD9, 0xDA, 0xDB, 0xDC, 0xDD, 0xDE, 0xDF]
  tenkey := [
    (0x2A, 0x80), (0x2B, 0x81), (0x2C, 0x82), (0x2D, 0x83), (0x2E, 0x84), (0x2F, 0x85), (0x30, 0x86), (0x31, 0x87),
    (0x32, 0x88), (0x33, 0x89), (0x34, 0x8A), (0x35, 0x8B), (0x36, 0x8C), (0x37, 0x8D), (0x38, 0x8E), (0x39, 0x8F),
    (0x3D, 0x90)]
  ext := [
    (0x0B, 5), (0x0C, 6), (0x0D, 0), (0x1C, 3), (0x1D, 4), (0x1E, 1), (0x1F, 2), (0x71, 7), (0x72, 8), (0x73, 9)]
  numpadEnter := 0x0D

/-- Tables together with the proof that they meet R8. The defaults only show that the type has an inhabitant. -/
structure ConformingTables where
  tables     : Tables := excfg
  conforming : tables.conforming = true := by decide
  deriving Inhabited

/-- The keyboard's own tables: OPEN in the source (R8, 93_implementation_defined.md). An opaque constant without a body:
nothing but R8's constraints can be proved of it (log entry 6, DESIGN CHOICE, safe). -/
opaque board : ConformingTables

end Sys2Proof.Config
end

