-- ==== Sys2Proof/Machine/Parts.lean ====
section
/-! DEFINITION. The components of the block's state (10_state.md R20-R36), each with its reset value (R41), and the default
window table of 30_encoding.md R86. -/

namespace Sys2Proof.Machine

/-- Mode A or Mode B: of a frame (R21) and of the interpreter (R29). -/
inductive Mode where
  | a
  | b
  deriving DecidableEq, Repr

/-- `dec.phase` (R21). -/
inductive Phase where
  | idle
  | receivingA
  | receivingB
  deriving DecidableEq, Repr

/-- The decoder's Protocol State (R21-R25). -/
structure Decoder where
  /-- R21 -/
  phase   : Phase
  /-- the polarity captured next (R22) -/
  armed   : Polarity
  /-- bits accumulated in the current frame, 0..24 (R23) -/
  bitcnt  : BitVec 5
  /-- the accumulator, most significant bit first (R24) -/
  acc     : BitVec 24
  /-- `hdr_hi_ok`: the next high sample may be the header high (R25) -/
  hdrHiOk : Bool
  deriving DecidableEq, Repr

/-- A Decoded Packet (R27); its 41-bit word form is `Packet.toWord`. -/
structure Packet where
  isModeB  : Bool
  status   : Byte
  ascii    : Byte
  gameKeys : GameKeys
  deriving DecidableEq, Repr

/-- The Packet Mailbox (R28). -/
structure Mailbox where
  ready : Bool
  slot  : Packet
  deriving DecidableEq, Repr

/-- The interpreter's Session State (R29-R32). -/
structure Session where
  /-- `current_mode` (R29) -/
  currentMode : Mode
  /-- `last_mode_b_snapshot` (R30) -/
  snapshot    : GameKeys
  /-- `last_registered_ascii` (R31) -/
  lastAscii   : Byte
  /-- `extended_key_active` (R32) -/
  extActive   : Bool
  deriving DecidableEq, Repr

/-- The Key Matrix: 19 rows of 16 cells (R33). -/
abbrev Matrix := Vector Row 19

/-- What the interpreter owns: Session State and Key Matrix (R20, R150). -/
structure Interp where
  ses : Session
  M   : Matrix
  deriving DecidableEq, Repr

/-- What an operation returns to the agent that applied it (30_encoding.md R80). -/
inductive Output where
  /-- EDGE, INIT, and a refused word -/
  | nothing
  /-- POLL, HANDLE_A, HANDLE_B: whether the matrix changed -/
  | changed (b : Bool)
  /-- READ_ROW: the row's value -/
  | row (v : Row)
  deriving DecidableEq, Repr

/-- R41: Idle, armed for a falling edge, everything else cleared. -/
def Decoder.reset : Decoder := ⟨.idle, .falling, 0, 0, false⟩

/-- R41: empty; the slot's value is never read while `ready` is false. -/
def Mailbox.reset : Mailbox := ⟨false, ⟨false, 0, 0, 0⟩⟩

/-- R41: Mode A with nothing registered. -/
def Session.reset : Session := ⟨.a, 0, 0x00, false⟩

/-- R41: every cell 0. -/
def Matrix.reset : Matrix := Vector.replicate 19 0

/-- The default WINDOWS: the document's nominal ± tolerance at one tick per microsecond (30_encoding.md R86). -/
def defaultWindows : Config.Windows where
  aHdrLow   := ⟨950, 1050⟩
  aHdrHigh  := ⟨675, 725⟩
  bHdrLow   := ⟨375, 425⟩
  bHdrHigh  := ⟨175, 225⟩
  bitLow    := ⟨225, 275⟩
  aBit0High := ⟨725, 775⟩
  aBit1High := ⟨1700, 1800⟩
  bBit0High := ⟨225, 275⟩
  bBit1High := ⟨725, 775⟩

end Sys2Proof.Machine
end

