-- ==== Sys2Proof/Machine/State.lean ====
section
/-! DEFINITION. The machine's state (10_state.md R20), the reasons a step can stop, and the state after reset (R41,
70_reset_and_hazards.md R250). The block has no memory, no program counter and no registers beside these (R38, R50). -/

namespace Sys2Proof.Machine

/-- The tuple `(dec, mbx, ses, M, refused)` of R20, and beside it the parameters (read-only), the words offered to the block and
the value the last operation returned. -/
structure State where
  /-- Protocol State, the edge agent's alone (R20-R26) -/
  dec     : Decoder
  /-- the Packet Mailbox, shared (R28) -/
  mbx     : Mailbox
  /-- Session State, the poll agent's alone (R29-R32) -/
  ses     : Session
  /-- the Key Matrix, the poll agent's alone (R33-R37) -/
  M       : Matrix
  /-- the model's refusal mark, not hardware state (R40) -/
  refused : Bool
  /-- the parameters of 00_scope.md R8: an argument of the model that no operation writes (R39; log entry 5) -/
  cfg     : Config.Params
  /-- the operation words offered to the block, the next one first: one interleaving of the two agents (20_memory.md R56;
  log entry 1) -/
  pending : List Offer
  /-- what the operation applied last returned (30_encoding.md R80; log entry 3) -/
  output  : Output
  deriving DecidableEq, Repr

/-- The block raises no exception and no operation stops (60_exceptions.md R220), so there is no fault at all: a timing
violation and an overrun are normal steps (R221, R222). -/
inductive Fault
  deriving DecidableEq, Repr

/-- Reasons a meaning could refuse to run. A refused WORD (R223) is not one of them: it is a next state with the `refused` mark. -/
inductive Refusal where
  /-- Raised by no arm: every instruction of the table has its meaning. It would be safe: the run stops. -/
  | notModelled (mnemonic : String)
  deriving DecidableEq, Repr

/-- Every component at its reset value (R41, R250) for given parameters, with nothing offered. -/
def State.resetWith (p : Config.Params) : State :=
  { dec := Decoder.reset, mbx := Mailbox.reset, ses := Session.reset, M := Matrix.reset, refused := false,
    cfg := p, pending := [], output := .nothing }

/-- The machine right after reset: the default windows (R86; log entry 7) and the tables the source leaves open (log entry 6). -/
def State.reset : State := State.resetWith ⟨defaultWindows, Config.board.tables⟩

end Sys2Proof.Machine
end

