-- ==== Sys2Proof/Machine/Flags.lean ====
section
/-! DEFINITION. The flags of the block: the active-low bits of a status byte (00_scope.md R12, 30_encoding.md R88) and the
`changed` flag of POLL, HANDLE_A and HANDLE_B (43_host_ops.md R201). -/

namespace Sys2Proof.Machine

/-- CTRL held: `st[0] = 0`. -/
def ctrl (st : Byte) : Bool := !st.getLsbD 0

/-- SHIFT held: `st[1] = 0`. -/
def shift (st : Byte) : Bool := !st.getLsbD 1

/-- Kana lock active: `st[2] = 0`. -/
def kana (st : Byte) : Bool := !st.getLsbD 2

/-- Caps lock active: `st[3] = 0`. -/
def caps (st : Byte) : Bool := !st.getLsbD 3

/-- GRAPH held: `st[4] = 0`. -/
def graph (st : Byte) : Bool := !st.getLsbD 4

/-- Auto-repeat of the held key: `st[5] = 0`. -/
def isRepeat (st : Byte) : Bool := !st.getLsbD 5

/-- Key-input indicator: `st[6] = 0`. No rule reads it (R88, decision D28). -/
def keyin (st : Byte) : Bool := !st.getLsbD 6

/-- The code comes from the ten-key pad: `st[7] = 0`. -/
def tenkey (st : Byte) : Bool := !st.getLsbD 7

/-- `changed`: some cell differs from its value before the operation (R201, decision D18). -/
def matrixChanged (before after : Matrix) : Bool := decide (after ≠ before)

end Sys2Proof.Machine
end

