-- ==== Sys2Proof/Machine/Operands.lean ====
section
/-! DEFINITION. How the operations read their operands: ticks against windows (00_scope.md R11, 30_encoding.md R86), codes as
matrix cells (10_state.md R34), codes in the lookup tables (00_scope.md R8), and the word form of a packet (30_encoding.md R90). -/

namespace Sys2Proof.Machine

open Config

/-- `inW`: the closed interval (R11). -/
def inWindow (t : Ticks) (w : Window) : Bool := decide (w.lo ≤ t) && decide (t ≤ w.hi)

/-- `HDR_HIGH(m)` (R86). -/
def hdrHigh (w : Windows) (m : Mode) : Window := match m with
  | .a => w.aHdrHigh
  | .b => w.bHdrHigh

/-- `BIT0_HIGH(m)` (R86). -/
def bit0High (w : Windows) (m : Mode) : Window := match m with
  | .a => w.aBit0High
  | .b => w.bBit0High

/-- `BIT1_HIGH(m)` (R86). -/
def bit1High (w : Windows) (m : Mode) : Window := match m with
  | .a => w.aBit1High
  | .b => w.bBit1High

/-- The frame length LEN of a mode: FRAME_LEN_A = 16, FRAME_LEN_B = 24 (R7, R91). -/
def frameLen (m : Mode) : BitVec 5 := match m with
  | .a => 16
  | .b => 24

/-- `mode(phase)`; none in Idle (R21). -/
def modeOf (p : Phase) : Option Mode := match p with
  | .idle => none
  | .receivingA => some .a
  | .receivingB => some .b

/-- The receiving phase of a mode (R21). -/
def receiving (m : Mode) : Phase := match m with
  | .a => .receivingA
  | .b => .receivingB

/-- The opposite polarity (40_decoder.md R100). -/
def opposite (pol : Polarity) : Polarity := match pol with
  | .falling => .rising
  | .rising => .falling

/-- The row of a code's cell, `c[7:4]` (R34). -/
def asciiRow (c : Byte) : Fin 19 := Fin.castLE (by decide) (c.extractLsb' 4 4).toFin

/-- The column of a code's cell, `c[3:0]` (R34). -/
def asciiCol (c : Byte) : Fin 16 := (c.extractLsb' 0 4).toFin

/-- The modifier/extended row (R33). -/
def modRow : Fin 19 := 16

/-- The column of extended bit e in row 16: 5 + e (R33). -/
def extCol (e : Fin 10) : Fin 16 := ⟨5 + e, by omega⟩

/-- GAME_BIT (R8). -/
def gameBit (t : Tables) (c : Byte) : Option (Fin 24) := t.gameBit.lookup c

/-- TENKEY_MAP (R8). -/
def tenkeyMap (t : Tables) (c : Byte) : Option Byte := t.tenkey.lookup c

/-- EXT_MAP (R8). -/
def extMap (t : Tables) (c : Byte) : Option (Fin 10) := t.ext.lookup c

/-- KANA_MAP(row, column) (R8). -/
def kanaMap (t : Tables) (row : BitVec 2) (col : BitVec 4) : Byte := t.kana[(row ++ col).toFin]

/-- The kana block 0xA0..0xDF (42_interpreter.md R160). -/
def inKanaBlock (c : Byte) : Bool := decide (0xA0 ≤ c) && decide (c ≤ 0xDF)

/-- `KANA_MAP((c - 0xA0) >> 4, c[3:0])` (R160). -/
def kanaRemap (t : Tables) (c : Byte) : Byte := kanaMap t (((c - 0xA0) >>> 4).setWidth 2) (c.extractLsb' 0 4)

/-- The 41-bit word of a packet (R90). -/
def Packet.toWord (p : Packet) : PacketWord := BitVec.ofBool p.isModeB ++ p.status ++ p.ascii ++ p.gameKeys

/-- The packet of a 41-bit word (R90). -/
def Packet.ofWord (w : PacketWord) : Packet :=
  ⟨w.getLsbD 40, w.extractLsb' 32 8, w.extractLsb' 24 8, w.extractLsb' 0 24⟩

/-- The packet HANDLE_A hands to the interpreter (43_host_ops.md R203), and a Mode A frame's packet (40_decoder.md R106). -/
def packetA (st a : Byte) : Packet := ⟨false, st, a, 0⟩

/-- The packet HANDLE_B hands to the interpreter (43_host_ops.md R204), and a Mode B frame's packet: status and ascii are the
sentinel 0xFF (10_state.md R27). -/
def packetB (g : GameKeys) : Packet := ⟨true, 0xFF, 0xFF, g⟩

end Sys2Proof.Machine
end

