-- ==== Sys2Proof/Machine/Ops.lean ====
section
/-! DEFINITION. The named operations the meanings share: updates of State, the mailbox primitives (41_mailbox.md), the matrix
primitives (42_interpreter.md R166), and the refusal of a word (60_exceptions.md R223). The block raises no exception and
returns from none (R220, R226), so there is no entry and no return to model. -/

namespace Sys2Proof.Machine

/-- Write the decoder's state. -/
def State.setDec (s : State) (d : Decoder) : State := { s with dec := d }

/-- Write the mailbox. -/
def State.setMbx (s : State) (m : Mailbox) : State := { s with mbx := m }

/-- What the interpreter owns. -/
def State.interp (s : State) : Interp := ⟨s.ses, s.M⟩

/-- Write what the interpreter owns. -/
def State.setInterp (s : State) (k : Interp) : State := { s with ses := k.ses, M := k.M }

/-- Return a value to the agent (30_encoding.md R80). -/
def State.setOutput (s : State) (o : Output) : State := { s with output := o }

/-- Replace the words offered. -/
def State.setPending (s : State) (ps : List Offer) : State := { s with pending := ps }

/-- `refuse`: no hardware state changes and `refused <- true` (R223); nothing is returned. -/
def State.refuse (s : State) : State := { s with refused := true, output := .nothing }

/-- `publish(p)` always overwrites the slot and sets ready (41_mailbox.md R140). -/
def publish (p : Packet) (m : Mailbox) : Mailbox := { m with slot := p, ready := true }

/-- EDGE hands a completed frame's packet to the mailbox in the same step (40_decoder.md R105). -/
def publishIfAny (p : Option Packet) (m : Mailbox) : Mailbox := match p with
  | none => m
  | some p => publish p m

/-- `take()` reads and clears ready in one step; the slot stays (41_mailbox.md R141). -/
def take (m : Mailbox) : Option Packet × Mailbox :=
  if m.ready then (some m.slot, { m with ready := false }) else (none, m)

/-- `M[r][c]` (00_scope.md R11). -/
def cell (M : Matrix) (r : Fin 19) (c : Fin 16) : Bool := (M[r]).getLsbD c

/-- `M[r] <- v`. -/
def writeRow (M : Matrix) (r : Fin 19) (v : Row) : Matrix := M.set r v

/-- `M[r][c] <- b`. -/
def writeCell (M : Matrix) (r : Fin 19) (c : Fin 16) (b : Bool) : Matrix :=
  writeRow M r (if b then M[r] ||| BitVec.twoPow 16 c else M[r] &&& ~~~ BitVec.twoPow 16 c)

/-- `SetAscii(c)` (R166). -/
def setAscii (c : Byte) (M : Matrix) : Matrix := writeCell M (asciiRow c) (asciiCol c) true

/-- `ClearAscii(c)` (R166). -/
def clearAscii (c : Byte) (M : Matrix) : Matrix := writeCell M (asciiRow c) (asciiCol c) false

/-- `SetExt(e)` (R166). -/
def setExt (e : Fin 10) (M : Matrix) : Matrix := writeCell M modRow (extCol e) true

/-- The ten extended columns 5..14 of row 16 (R33). -/
def extMask : Row := 0x7FE0

/-- The five modifier columns 0..4 of row 16 (R33). -/
def modMask : Row := 0x001F

/-- `ClearExtRegion()`: `M[16][14:5] <- 0` (R166). -/
def clearExtRegion (M : Matrix) : Matrix := writeRow M modRow (M[modRow] &&& ~~~ extMask)

/-- `SetMods(st)`: `M[16][i] <- ~st[i]` for i in 0..4, the rest of the row kept (R165). -/
def setMods (st : Byte) (M : Matrix) : Matrix :=
  writeRow M modRow ((M[modRow] &&& ~~~ modMask) ||| ((~~~ st).setWidth 16 &&& modMask))

/-- READ_ROW's value: rows 0..18, and 0x0000 for the indices 19..31 (43_host_ops.md R202). -/
def readRowValue (M : Matrix) (i : BitVec 5) : Row := if h : i.toNat < 19 then M[i.toNat] else 0x0000

end Sys2Proof.Machine
end

