-- ==== Sys2Proof/Machine/Interpreter.lean ====
section
/-! DEFINITION. The Key Event Interpreter: HANDLE and its steps (42_interpreter.md R150-R166), as functions of the tables and of
what the interpreter owns. It has no error path (R167). -/

namespace Sys2Proof.Machine

open Config

/-- `ModeB(g)`: the game-key rows, the snapshot and the mode (R151; the row split is 10_state.md R35). -/
def modeB (g : GameKeys) (k : Interp) : Interp :=
  { ses := { k.ses with snapshot := g, currentMode := .b }
    M := writeRow (writeRow k.M 17 (g.extractLsb' 0 16)) 18 ((g.extractLsb' 16 8).setWidth 16) }

/-- Step 1, `ClearPrevious(st)` (R153). -/
def clearPrevious (st : Byte) (k : Interp) : Interp :=
  if isRepeat st then k
  else
    { ses := { k.ses with extActive := false }
      M := if k.ses.extActive then clearExtRegion k.M else clearAscii k.ses.lastAscii k.M }

/-- Set a code's cell and remember it as `last_ascii` (R155, R158, R159, R164). -/
def registerAscii (c : Byte) (k : Interp) : Interp :=
  { ses := { k.ses with lastAscii := c }, M := setAscii c k.M }

/-- Set an extended bit and mark the extended key active (R156, R157). -/
def registerExt (e : Fin 10) (k : Interp) : Interp :=
  { ses := { k.ses with extActive := true }, M := setExt e k.M }

/-- The three codes whose switch needs ctrl: ESC, ENTER, TAB (R161). -/
def needsCtrl (c : Byte) : Bool := c == 0x1B || c == 0x0D || c == 0x09

/-- `Detect(st, c)`: step 4b (R161). -/
def detect (t : Tables) (st c : Byte) (ses : Session) : Bool := match gameBit t c with
  | none => false
  | some k => !ses.snapshot.getLsbD k && (if needsCtrl c then ctrl st else true)

/-- Accepting the switch sets `current_mode = A` (R157, R160, R161). -/
def switchIf (accepted : Bool) (ses : Session) : Session := if accepted then { ses with currentMode := .a } else ses

/-- `Suppress(c)`: step 4d (R163). -/
def suppress (t : Tables) (c : Byte) (ses : Session) : Bool := match gameBit t c with
  | none => false
  | some k => decide (ses.currentMode = .b) && ses.snapshot.getLsbD k

/-- `NumpadEnter(st, c)` (R157). R8 puts the code in EXT_MAP's domain; for tables that break R8 nothing is registered. -/
def numpadEnter (t : Tables) (st c : Byte) (k : Interp) : Interp :=
  let ses := switchIf (detect t st c k.ses) k.ses
  if suppress t c ses then { k with ses := ses }
  else match extMap t c with
    | some e => registerExt e { k with ses := ses }
    | none => { k with ses := ses }

/-- Step 2, `TenKey(st, c0)` (R155-R158). -/
def tenKey (t : Tables) (st c0 : Byte) (k : Interp) : Interp := match tenkeyMap t c0 with
  | some r => registerAscii r k
  | none =>
    if c0 = t.numpadEnter then numpadEnter t st c0 k
    else match extMap t c0 with
      | some e => registerExt e k
      | none => registerAscii c0 k

/-- The two codes step 3 overrides (R154). -/
def isCtrlCollision (c0 : Byte) : Bool := c0 == 0x03 || c0 == 0x12

/-- Step 3, `CtrlCollision(c0)`: 'C' for ctrl+C, 'R' for ctrl+R (R159). -/
def ctrlCollision (c0 : Byte) (k : Interp) : Interp := registerAscii (if c0 = 0x03 then 0x43 else 0x52) k

/-- Step 4a: the tentative code (R160). -/
def tentative (t : Tables) (st c0 : Byte) (ses : Session) : Byte :=
  if ses.currentMode = .b ∧ kana st = true ∧ inKanaBlock c0 = true then kanaRemap t c0 else c0

/-- Step 4, `General(st, c0)`: 4a tentative remap, 4b detection, 4c choice of code, 4d suppression, 4e registration (R160-R164). -/
def general (t : Tables) (st c0 : Byte) (k : Interp) : Interp :=
  let code := tentative t st c0 k.ses
  let accepted := detect t st code k.ses
  let ses := switchIf accepted k.ses
  let f := if accepted then c0 else code
  if suppress t f ses then { k with ses := ses } else registerAscii f { k with ses := ses }

/-- The choice of step 2, 3 or 4 (R154). -/
def branch (t : Tables) (st c0 : Byte) (k : Interp) : Interp :=
  if tenkey st then tenKey t st c0 k
  else if ctrl st && !shift st && isCtrlCollision c0 then ctrlCollision c0 k
  else general t st c0 k

/-- Step 5 on what the interpreter owns (R165). -/
def registerMods (st : Byte) (k : Interp) : Interp := { k with M := setMods st k.M }

/-- `ModeA(st, c0)`: step 1, one of steps 2 to 4, step 5, in this order (R154). -/
def modeA (t : Tables) (st c0 : Byte) (k : Interp) : Interp :=
  registerMods st (branch t st c0 (clearPrevious st k))

/-- `HANDLE(p)` (R150). -/
def handle (t : Tables) (p : Packet) (k : Interp) : Interp :=
  if p.isModeB then modeB p.gameKeys k else modeA t p.status p.ascii k

end Sys2Proof.Machine
end

