-- ==== Sys2Proof/Machine/HostOps.lean ====
section
/-! DEFINITION. The poll agent's operations (43_host_ops.md R200-R204). -/

namespace Sys2Proof.Machine

/-- Run HANDLE on a packet and return `changed` (R201, R203, R204). -/
def handleAndReport (p : Packet) (s : State) : State :=
  (s.setInterp (handle s.cfg.tables p s.interp)).setOutput
    (.changed (matrixChanged s.M (handle s.cfg.tables p s.interp).M))

/-- INIT: every component of dec, mbx, ses and M takes its reset value; `refused` is not written (R200, 10_state.md R41). -/
def execInit (s : State) : Host.Outcome State Fault Refusal :=
  .next ((((s.setDec Decoder.reset).setMbx Mailbox.reset).setInterp ⟨Session.reset, Matrix.reset⟩).setOutput .nothing)

/-- What POLL does after `take`: handle the packet, if there is one (R201). -/
def pollWith (taken : Option Packet) (s : State) : State := match taken with
  | some p => handleAndReport p s
  | none => s.setOutput (.changed false)

/-- POLL: drain the mailbox if ready, run the interpreter, return whether the matrix changed (R201). -/
def execPoll (s : State) : Host.Outcome State Fault Refusal :=
  .next (pollWith (take s.mbx).1 (s.setMbx (take s.mbx).2))

/-- READ_ROW: no state is written (R202). -/
def execReadRow (i : BitVec 5) (s : State) : Host.Outcome State Fault Refusal :=
  .next (s.setOutput (.row (readRowValue s.M i)))

/-- HANDLE_A: HANDLE on the word's Mode A packet (R203). -/
def execHandleA (st a : Byte) (s : State) : Host.Outcome State Fault Refusal :=
  .next (handleAndReport (packetA st a) s)

/-- HANDLE_B: HANDLE on the word's Mode B packet (R204). -/
def execHandleB (g : GameKeys) (s : State) : Host.Outcome State Fault Refusal :=
  .next (handleAndReport (packetB g) s)

end Sys2Proof.Machine
end

