-- ==== Sys2Proof/Machine/SignalDecoder.lean ====
section
/-! DEFINITION. The Signal Decoder: EDGE (40_decoder.md R100-R107). The transitions are functions of the decoder's own state, the
windows and the edge, and answer the packet of a completed frame; so EDGE cannot touch the interpreter (R109). -/

namespace Sys2Proof.Machine

open Config

/-- `Abort()`: discard the frame (R107). -/
def abort (d : Decoder) : Decoder := { d with phase := .idle, bitcnt := 0, acc := 0, hdrHiOk := false }

/-- `Shift(b)`: accumulate one bit, most significant first (R104). -/
def shiftIn (b : Bool) (d : Decoder) : Decoder :=
  { d with acc := (d.acc <<< 1) ||| (BitVec.ofBool b).setWidth 24, bitcnt := d.bitcnt + 1 }

/-- `Assemble(phase, x)` (R106). -/
def assemble (m : Mode) (x : BitVec 24) : Packet := match m with
  | .a => packetA (x.extractLsb' 8 8) (x.extractLsb' 0 8)
  | .b => packetB x

/-- Header acceptance: enter the receiving phase with everything cleared and the header-high allowance (R102). -/
def acceptHeader (m : Mode) (d : Decoder) : Decoder :=
  { d with phase := receiving m, bitcnt := 0, acc := 0, hdrHiOk := true }

/-- `HeaderLow(t)`: a captured rising edge in Idle (R102). -/
def headerLow (w : Windows) (t : Ticks) (d : Decoder) : Decoder :=
  if inWindow t w.aHdrLow then acceptHeader .a d
  else if inWindow t w.bHdrLow then acceptHeader .b d
  else d

/-- `HighSample(t)`: a captured falling edge while receiving a frame of mode m (R103). -/
def highSample (w : Windows) (m : Mode) (t : Ticks) (d : Decoder) : Decoder :=
  if d.hdrHiOk && inWindow t (hdrHigh w m) then { d with hdrHiOk := false }
  else if decide (d.bitcnt < frameLen m) && inWindow t (bit0High w m) then { shiftIn false d with hdrHiOk := false }
  else if decide (d.bitcnt < frameLen m) && inWindow t (bit1High w m) then { shiftIn true d with hdrHiOk := false }
  else abort d

/-- `LowSample(t)`: a captured rising edge while receiving a frame of mode m (R105). The frame that completes leaves the
decoder as Abort does, with its packet. -/
def lowSample (w : Windows) (m : Mode) (t : Ticks) (d : Decoder) : Decoder × Option Packet :=
  if inWindow t w.bitLow then
    if d.bitcnt = frameLen m then (abort d, some (assemble m d.acc)) else (d, none)
  else (abort d, none)

/-- `on_edge(ticks, rising) -> Option<DecodedPacket>` (R100): an edge of the unarmed polarity is ignored; a captured edge arms the
other polarity and runs exactly one of the four transitions, chosen by the phase before it. IdleFall (R101) changes nothing else. -/
def onEdge (w : Windows) (pol : Polarity) (t : Ticks) (d : Decoder) : Decoder × Option Packet :=
  if pol = d.armed then
    match modeOf d.phase, pol with
    | none, .falling => ({ d with armed := opposite pol }, none)
    | none, .rising => (headerLow w t { d with armed := opposite pol }, none)
    | some m, .falling => (highSample w m t { d with armed := opposite pol }, none)
    | some m, .rising => lowSample w m t { d with armed := opposite pol }
  else (d, none)

/-- EDGE (R100): the decoder's transition, and the hand-over of a completed packet to the mailbox (R105). It returns nothing
(30_encoding.md R80). -/
def execEdge (pol : Polarity) (t : Ticks) (s : State) : Host.Outcome State Fault Refusal :=
  .next (((s.setDec (onEdge s.cfg.windows pol t s.dec).1).setMbx
    (publishIfAny (onEdge s.cfg.windows pol t s.dec).2 s.mbx)).setOutput .nothing)

end Sys2Proof.Machine
end

