-- ==== Sys2Proof/Machine/Dispatch.lean ====
section
/-! DEFINITION. One arm per operation (43_host_ops.md R205). -/

namespace Sys2Proof.Machine

def exec (i : Instr) (s : State) : Host.Outcome State Fault Refusal :=
  match i with
  | .edge pol t => Sys2Proof.Machine.execEdge pol t s
  | .poll => Sys2Proof.Machine.execPoll s
  | .readRow r => Sys2Proof.Machine.execReadRow r s
  | .init => Sys2Proof.Machine.execInit s
  | .handleA st a => Sys2Proof.Machine.execHandleA st a s
  | .handleB g => Sys2Proof.Machine.execHandleB g s

end Sys2Proof.Machine
end

