-- ==== Sys2Proof/Machine/Step.lean ====
section
/-! DEFINITION. One step: the block applies the next offered word (43_host_ops.md R205), refuses it (60_exceptions.md R223), or,
with no word offered, stays idle with all its state (R232). -/

namespace Sys2Proof.Machine

/-- `STEP(w)` for the word at the head of `pending` (R205). -/
def step (s : State) : Host.Outcome State Fault Refusal :=
  match s.pending with
  | [] => .next s
  | o :: rest =>
    match decodeOffer o with
    | .ok i => exec i (s.setPending rest)
    | .error _ => .next (s.setPending rest).refuse

/-- The word offered next, by the agent its opcode belongs to (log entry 8). -/
def State.withFetchWord (s : State) (nbits w : Nat) : State :=
  s.setPending (⟨offeringAgent (tableWord nbits w), tableWord nbits w⟩ :: s.pending)

end Sys2Proof.Machine
end

