-- ==== Sys2Proof/Machine/Frames.lean ====
section
/-! DEFINITION. Frames on the serial line: the intervals of a frame (30_encoding.md R84), which frames conform to the windows
(R84, R86), and the nominal frames of the pseudo-operations FRAME_A and FRAME_B (R82, R83). -/

namespace Sys2Proof.Machine

open Config

/-- One bit on the wire: a low interval, then a high interval whose length carries the value (R84). -/
structure BitTimes where
  low  : Ticks
  high : Ticks
  deriving DecidableEq, Repr

/-- The intervals of a frame (R84), and the ticks of the falling edge that starts it, which are not classified (40_decoder.md R101). -/
structure FrameTimes where
  start    : Ticks
  headLow  : Ticks
  headHigh : Ticks
  bits     : List BitTimes
  last     : Ticks
  deriving DecidableEq, Repr

/-- The two edges of one bit (R84). -/
def BitTimes.edges (b : BitTimes) : List Instr := [.edge .rising b.low, .edge .falling b.high]

/-- The edges of a frame, up to the one that completes it (R84). -/
def FrameTimes.edges (f : FrameTimes) : List Instr :=
  [.edge .falling f.start, .edge .rising f.headLow, .edge .falling f.headHigh] ++ f.bits.flatMap BitTimes.edges ++
    [.edge .rising f.last]

/-- How long a frame lasts, from the header's falling edge to the completing rising edge (70_reset_and_hazards.md R253). -/
def FrameTimes.duration (f : FrameTimes) : Nat :=
  f.headLow.toNat + f.headHigh.toNat + (f.bits.map fun b => b.low.toNat + b.high.toNat).sum + f.last.toNat

/-- The header-low window of a mode (R86, R91). -/
def hdrLow (w : Windows) (m : Mode) : Window := match m with
  | .a => w.aHdrLow
  | .b => w.bHdrLow

/-- The high window that carries a bit (R84, R86). -/
def bitHigh (w : Windows) (m : Mode) (b : Bool) : Window := if b then bit1High w m else bit0High w m

/-- The interval of a bit of value b conforms (R84). -/
def BitTimes.conforms (w : Windows) (m : Mode) (b : Bool) (x : BitTimes) : Bool :=
  inWindow x.low w.bitLow && inWindow x.high (bitHigh w m b)

/-- Every bit of the list conforms to its value, one for one. -/
def bitsConform (w : Windows) (m : Mode) (bs : List Bool) (xs : List BitTimes) : Bool := match bs, xs with
  | [], [] => true
  | b :: bs, x :: xs => x.conforms w m b && bitsConform w m bs xs
  | _, _ => false

/-- A conforming frame of mode m that carries the bits bs, first transmitted bit first: every interval lies in its window and the
header high is present (40_decoder.md R108 (b), (c)). -/
def FrameTimes.conforms (w : Windows) (m : Mode) (bs : List Bool) (f : FrameTimes) : Bool :=
  inWindow f.headLow (hdrLow w m) && inWindow f.headHigh (hdrHigh w m) && bitsConform w m bs f.bits && inWindow f.last w.bitLow

/-- The bits of a value as transmitted, most significant first (20_memory.md R52). -/
def bitsMsbFirst {n : Nat} (x : BitVec n) : List Bool := (List.range n).map fun i => x.getMsbD i

/-- The accumulator's value after these bits, first bit first (40_decoder.md R104). -/
def bitsValue (bs : List Bool) : BitVec 24 := bs.foldl (fun x b => (x <<< 1) ||| (BitVec.ofBool b).setWidth 24) 0

/-- The bits of a Mode A frame: the status byte, then the ascii byte (R89). -/
def bitsA (st a : Byte) : List Bool := bitsMsbFirst (st ++ a)

/-- The bits of a Mode B frame (R89). -/
def bitsB (g : GameKeys) : List Bool := bitsMsbFirst g

/-- The nominal times of a bit: low 250; high 1750 or 750 in Mode A (R82), 750 or 250 in Mode B (R83). -/
def nominalBit (m : Mode) (b : Bool) : BitTimes := match m with
  | .a => ⟨250, if b then 1750 else 750⟩
  | .b => ⟨250, if b then 750 else 250⟩

/-- The nominal frame of FRAME_A `st, a, idle = t0` (R82). -/
def nominalA (st a : Byte) (t0 : Ticks) : FrameTimes := ⟨t0, 1000, 700, (bitsA st a).map (nominalBit .a), 250⟩

/-- The nominal frame of FRAME_B `g, idle = t0` (R83). -/
def nominalB (g : GameKeys) (t0 : Ticks) : FrameTimes := ⟨t0, 400, 200, (bitsB g).map (nominalBit .b), 250⟩

/-- `FRAME_A st, a, idle=t0`: 36 EDGE operations (R82). -/
def frameA (st a : Byte) (t0 : Ticks) : List Instr := (nominalA st a t0).edges

/-- `FRAME_B g, idle=t0`: 52 EDGE operations (R83). -/
def frameB (g : GameKeys) (t0 : Ticks) : List Instr := (nominalB g t0).edges

/-- The default idle ticks of FRAME_A and FRAME_B (R82, R83). -/
def defaultIdle : Ticks := 5000

end Sys2Proof.Machine
end

