-- ==== Sys2Proof/Machine/Assembler.lean ====
section
/-! DEFINITION. The assembler syntax of 30_encoding.md R81 and its pseudo-operations (R82, R83): one line of text as the operations
it spells. The block never sees the text; a line that spells nothing is refused here (log entry 15). -/

namespace Sys2Proof.Machine

/-- Mnemonics, polarity letters and the prefix 0x are case insensitive (R81). -/
def upperChar (c : Char) : Char := c.toUpper

/-- Operands are separated by commas and spaces. -/
def isSeparator (c : Char) : Bool := c == ' ' || c == ','

/-- The words of a line between its separators. -/
def splitLine (line : List Char) : List (List Char) :=
  let parts := line.foldr (fun c acc => if isSeparator c then ([], acc.1 :: acc.2) else (c :: acc.1, acc.2))
    (([], []) : List Char × List (List Char))
  (parts.1 :: parts.2).filter fun w => !w.isEmpty

/-- The value of a digit in upper case. -/
def digitValue (c : Char) : Option Nat :=
  if '0' ≤ c ∧ c ≤ '9' then some (c.toNat - 48) else if 'A' ≤ c ∧ c ≤ 'F' then some (c.toNat - 55) else none

/-- Digits in a base, most significant first, after the value read so far. -/
def readDigits (base : Nat) (value : Nat) (ds : List Char) : Option Nat := match ds with
  | [] => some value
  | d :: ds => match digitValue d with
    | some v => if v < base then readDigits base (value * base + v) ds else none
    | none => none

/-- A number: decimal, or hexadecimal with `0x`, where underscores group digits (R81). -/
def readNumber (w : List Char) : Option Nat := match w with
  | '0' :: 'X' :: ds => if (ds.filter (· != '_')).isEmpty then none else readDigits 16 0 (ds.filter (· != '_'))
  | [] => none
  | ds => readDigits 10 0 ds

/-- A number that fits the operand's field. -/
def readField (n : Nat) (w : List Char) : Option (BitVec n) := match readNumber w with
  | some v => if v < 2 ^ n then some (BitVec.ofNat n v) else none
  | none => none

/-- F or R (R81). -/
def readPolarity (w : List Char) : Option Polarity :=
  if w = ['F'] then some .falling else if w = ['R'] then some .rising else none

/-- `idle=<t0>`; without it 5000 (R82, R83). -/
def readIdle (ws : List (List Char)) : Option Ticks := match ws with
  | [] => some defaultIdle
  | [w] => if w.take 5 = "IDLE=".toList then readField 32 (w.drop 5) else none
  | _ => none

/-- A line's mnemonic and operands as operations (R81-R83). -/
def assembleWords (m : List Char) (args : List (List Char)) : Option (List Instr) :=
  if m = "EDGE".toList then match args with
    | [p, t] => match readPolarity p, readField 32 t with
      | some p, some t => some [.edge p t]
      | _, _ => none
    | _ => none
  else if m = "POLL".toList then if args = [] then some [.poll] else none
  else if m = "READ_ROW".toList then match args with
    | [i] => (readField 5 i).map fun i => [.readRow i]
    | _ => none
  else if m = "INIT".toList then if args = [] then some [.init] else none
  else if m = "HANDLE_A".toList then match args with
    | [st, a] => match readField 8 st, readField 8 a with
      | some st, some a => some [.handleA st a]
      | _, _ => none
    | _ => none
  else if m = "HANDLE_B".toList then match args with
    | [g] => (readField 24 g).map fun g => [.handleB g]
    | _ => none
  else if m = "FRAME_A".toList then match args with
    | st :: a :: rest => match readField 8 st, readField 8 a, readIdle rest with
      | some st, some a, some t0 => some (frameA st a t0)
      | _, _, _ => none
    | _ => none
  else if m = "FRAME_B".toList then match args with
    | g :: rest => match readField 24 g, readIdle rest with
      | some g, some t0 => some (frameB g t0)
      | _, _ => none
    | _ => none
  else none

/-- One line of text: one operation, or a pseudo-operation's sequence (R81-R83). -/
def assembleLine (line : String) : Option (List Instr) :=
  match splitLine (line.toList.map upperChar) with
  | [] => none
  | m :: args => assembleWords m args

end Sys2Proof.Machine
end

