-- ==== Sys2Proof/Safety.lean ====
section
/-! DEFINITION. The terms claims are stated in: the invariants of the block's state (10_state.md R26, R27, R32, R36), what a claim
about the hardware takes as a premise (60_exceptions.md R223, R229), and runs of several operations. -/

namespace Sys2Proof.Machine

/-- A run has a meaning for the hardware only while nothing was refused (R223). -/
def State.meaningful (s : State) : Prop := s.refused = false

/-- The environment's premise: an EDGE offered next has the armed polarity (R229). -/
def State.edgeArmed (s : State) : Prop :=
  ∀ o rest pol t, s.pending = o :: rest → decodeOffer o = .ok (.edge pol t) → pol = s.dec.armed

/-- The decoder invariants (a) to (d) of R26. -/
structure Decoder.Inv (d : Decoder) : Prop where
  idle_cleared : d.phase = .idle → d.bitcnt = 0 ∧ d.acc = 0 ∧ d.hdrHiOk = false
  bitcnt_le : ∀ m, modeOf d.phase = some m → d.bitcnt ≤ frameLen m
  allowance : d.hdrHiOk = true → d.bitcnt = 0 ∧ d.armed = .falling
  acc_lt : d.phase ≠ .idle → d.acc.toNat < 2 ^ d.bitcnt.toNat

/-- A guard the decoder needs beside R26 to keep it: between the last bit and the completing low time the frame is full, so a full
frame waits for a rising edge (40_decoder.md R103 corner case (d)). -/
def Decoder.fullWaitsForLow (d : Decoder) : Prop :=
  ∀ m, modeOf d.phase = some m → d.bitcnt = frameLen m → d.armed = .rising

/-- R27: a Mode A packet has no game keys; a Mode B packet has the sentinel 0xFF in status and ascii. -/
def Packet.wellFormed (p : Packet) : Prop :=
  (p.isModeB = false → p.gameKeys = 0) ∧ (p.isModeB = true → p.status = 0xFF ∧ p.ascii = 0xFF)

/-- R36: `M[16][15]` and `M[18][15:8]` are 0. -/
def hardwiredZero (M : Matrix) : Prop :=
  cell M 16 15 = false ∧ ∀ c : Fin 16, 8 ≤ c.val → cell M 18 c = false

/-- R32's joint invariant: `ext_active` and `last_ascii` identify the one held key path. With `ext_active` false no cell but that of
`last_ascii` is set in the ASCII region, and no extended bit; with `ext_active` true the ASCII region is clear and at most one
extended bit is set. -/
structure Interp.OneKeyPath (k : Interp) : Prop where
  ascii_path : k.ses.extActive = false → ∀ c : Byte, cell k.M (asciiRow c) (asciiCol c) = true → c = k.ses.lastAscii
  no_ext : k.ses.extActive = false → ∀ e : Fin 10, cell k.M modRow (extCol e) = false
  ext_path : k.ses.extActive = true → ∀ c : Byte, cell k.M (asciiRow c) (asciiCol c) = false
  one_ext : ∀ e e' : Fin 10, cell k.M modRow (extCol e) = true → cell k.M modRow (extCol e') = true → e = e'

/-- R32's premise on one packet: a Mode B packet, or a genuine new key (R153). -/
def Packet.genuine (p : Packet) : Prop := p.isModeB = true ∨ isRepeat p.status = false

/-- The packet the next step hands to the interpreter, if it hands one (43_host_ops.md R201, R203, R204). -/
def handledPacket (i : Instr) (s : State) : Option Packet := match i with
  | .edge _ _ => none
  | .poll => if s.mbx.ready then some s.mbx.slot else none
  | .readRow _ => none
  | .init => none
  | .handleA st a => some (packetA st a)
  | .handleB g => some (packetB g)

/-- The block's invariant: what every reachable state satisfies (R26, R27, R36) and the constraints on its parameters (00_scope.md R8). -/
structure State.Inv (s : State) : Prop where
  dec : s.dec.Inv
  slot : s.mbx.slot.wellFormed
  matrix : hardwiredZero s.M
  cfg : s.cfg.conforming = true

/-- The switch to Mode A is accepted for a code (R161): the code has a game bit, the bit is clear in the snapshot, and for ESC, ENTER and
TAB ctrl is held. -/
def SwitchAccepted (t : Config.Tables) (st c : Byte) (ses : Session) : Prop :=
  ∃ k, gameBit t c = some k ∧ ses.snapshot.getLsbD k = false ∧ (c = 0x1B ∨ c = 0x0D ∨ c = 0x09 → ctrl st = true)

/-- Mode B's snapshot holds the code's key while the mode is B (R163). -/
def HeldInModeB (t : Config.Tables) (c : Byte) (ses : Session) : Prop :=
  ses.currentMode = .b ∧ ∃ k, gameBit t c = some k ∧ ses.snapshot.getLsbD k = true

/-- The cell of an 8-bit code (10_state.md R34). -/
def isCellOf (code : Byte) (r : Fin 19) (c : Fin 16) : Prop := r = asciiRow code ∧ c = asciiCol code

/-- The cell of an extended bit (10_state.md R33). -/
def isExtCell (e : Fin 10) (r : Fin 19) (c : Fin 16) : Prop := r = modRow ∧ c = extCol e

/-- No cell: a suppressed registration sets none (R163). -/
def noCell (_ : Fin 19) (_ : Fin 16) : Prop := False

/-- Step 1 clears this cell: for a genuine new key the ten extended cells, or the cell of the last registered code (R153). -/
def clearedCell (st : Byte) (ses : Session) (r : Fin 19) (c : Fin 16) : Prop :=
  isRepeat st = false ∧
    (if ses.extActive then r = modRow ∧ 5 ≤ c.val ∧ c.val ≤ 14 else isCellOf ses.lastAscii r c)

/-- Every cell after a Mode A packet with status st that set the cells `set`: the five modifier cells follow the status byte (R165); any
other cell is set if the branch set it, or if it was set and step 1 did not clear it (R153, R154). -/
def cellsAfterModeA (st : Byte) (s t : State) (set : Fin 19 → Fin 16 → Prop) : Prop :=
  ∀ r c, cell t.M r c = true ↔
    if r = modRow ∧ c.val < 5 then st.getLsbD c = false
    else set r c ∨ (cell s.M r c = true ∧ ¬ clearedCell st s.ses r c)

/-- The packet takes step 3: ctrl held without shift, not ten-key, one of the two colliding codes (R154). -/
def TakesCtrlCollision (st c0 : Byte) : Prop :=
  tenkey st = false ∧ ctrl st = true ∧ shift st = false ∧ (c0 = 0x03 ∨ c0 = 0x12)

/-- The packet takes step 4 (R154). -/
def TakesGeneralPath (st c0 : Byte) : Prop :=
  tenkey st = false ∧ ¬ (ctrl st = true ∧ shift st = false ∧ (c0 = 0x03 ∨ c0 = 0x12))

/-- The packet is numpad-enter's (R155). -/
def TakesNumpadEnter (t : Config.Tables) (st c0 : Byte) : Prop :=
  tenkey st = true ∧ tenkeyMap t c0 = none ∧ c0 = t.numpadEnter

/-- A Mode A packet with status st and code c0 switches the mode to A: the two places where mode detection runs, each with the code it looks
up there (R157, R160). -/
inductive SwitchesMode (t : Config.Tables) (st c0 : Byte) (ses : Session) : Prop where
  | general (path : TakesGeneralPath st c0) (accepted : SwitchAccepted t st (tentative t st c0 ses) ses)
  | numpadEnter (path : TakesNumpadEnter t st c0) (accepted : SwitchAccepted t st c0 ses)

/-- A Mode A packet with status st and code c0 registers the cell (r, c): one constructor per place where steps 2 to 4 set a cell. -/
inductive Registers (t : Config.Tables) (st c0 : Byte) (ses : Session) (r : Fin 19) (c : Fin 16) : Prop where
  /-- the image of a ten-key code in TENKEY_MAP (R155) -/
  | tenkeyImage (code : Byte) (ten : tenkey st = true) (image : tenkeyMap t c0 = some code) (at_cell : isCellOf code r c)
  /-- a special ten-key code (R156) -/
  | special (e : Fin 10) (ten : tenkey st = true) (image : tenkeyMap t c0 = none) (other : c0 ≠ t.numpadEnter)
      (bit : extMap t c0 = some e) (at_cell : isExtCell e r c)
  /-- numpad-enter, unless suppressed (R157) -/
  | numpadEnter (e : Fin 10) (path : TakesNumpadEnter t st c0) (bit : extMap t c0 = some e)
      (kept : SwitchAccepted t st c0 ses ∨ ¬ HeldInModeB t c0 ses) (at_cell : isExtCell e r c)
  /-- a ten-key code in neither table (R158) -/
  | tenkeyOther (ten : tenkey st = true) (image : tenkeyMap t c0 = none) (other : c0 ≠ t.numpadEnter) (bit : extMap t c0 = none)
      (at_cell : isCellOf c0 r c)
  /-- ctrl+C registers 'C' (R159) -/
  | ctrlC (path : TakesCtrlCollision st c0) (key : c0 = 0x03) (at_cell : isCellOf 0x43 r c)
  /-- ctrl+R registers 'R' (R159) -/
  | ctrlR (path : TakesCtrlCollision st c0) (key : c0 = 0x12) (at_cell : isCellOf 0x52 r c)
  /-- the original code after an accepted switch (R162) -/
  | original (path : TakesGeneralPath st c0) (accepted : SwitchAccepted t st (tentative t st c0 ses) ses) (at_cell : isCellOf c0 r c)
  /-- the tentative code, unless suppressed (R163, R164) -/
  | general (path : TakesGeneralPath st c0) (rejected : ¬ SwitchAccepted t st (tentative t st c0 ses) ses)
      (kept : ¬ HeldInModeB t (tentative t st c0 ses) ses) (at_cell : isCellOf (tentative t st c0 ses) r c)

/-- The frame of HANDLE: the decoder, the mailbox, the refusal mark, the parameters and the words offered are as before (R150, R203). -/
def onlyInterpChanged (s t : State) : Prop :=
  t.dec = s.dec ∧ t.mbx = s.mbx ∧ t.refused = s.refused ∧ t.cfg = s.cfg ∧ t.pending = s.pending

/-- Apply operations in order, stopping where one gives no next state. -/
def execAll (ops : List Instr) (s : State) : Host.Outcome State Fault Refusal := match ops with
  | [] => .next s
  | i :: ops => match exec i s with
    | .next s' => execAll ops s'
    | .fault r => .fault r
    | .refused r => .refused r

/-- k steps of the machine. -/
def run (k : Nat) (s : State) : Host.Outcome State Fault Refusal := Sys2Proof.core.run k s

end Sys2Proof.Machine
end

