-- ==== Sys2Proof/Certificates/Slice0/Obligations.lean ====
section
/-! DEFINITION. The statements for the provers. Each docstring names the rule of spec/ it formalises; OBLIGATIONS.json lists them. -/

open Sys2Proof Sys2Proof.Machine

/-! ### Words -/

/-- Words written out from the formats of 30_encoding.md R72-R77 (and listed in 95_test_vectors.md) decode to the operations they stand for;
`0x10_0000_03E8` is `EDGE F, 1000`. -/
def Obligations.DecodesWordsWrittenFromTheFormats : Prop :=
  decode 0b0001_000_0_00000000_00000000_00000011_11101000 = .ok (.edge .falling 1000) ∧
  decode 0b0001_000_1_11111111_11111111_11111111_11111111 = .ok (.edge .rising 4294967295) ∧
  decode 0b0010_000000000000000000000000000000000000 = .ok .poll ∧
  decode 0b0011_0000000000000000000000000000000_10010 = .ok (.readRow 18) ∧
  decode 0b0100_000000000000000000000000000000000000 = .ok .init ∧
  decode 0b0101_00000000000000000000_11111110_00000011 = .ok (.handleA 0xFE 0x03) ∧
  decode 0b0110_000000000000_100000000000000000000001 = .ok (.handleB 0x800001)

/-- Decoding the word of any operation gives the operation back (R70-R77, R79). -/
def Obligations.DecodeOfEncodeIsTheInstruction : Prop := ∀ i : Instr, decode (encode i) = .ok i

/-- A word that decodes is the word of what it decodes to: no two words spell one operation, and every fixed bit is 0 (R70-R78). -/
def Obligations.EncodeOfDecodeIsTheWord : Prop := ∀ (w : OpWord) (i : Instr), decode w = .ok i → encode i = w

/-- R78: a word is ill-formed when its opcode is 0x0 or in 0x7..0xF, or when any bit the format of its opcode fixes at 0 is 1. -/
def Obligations.WordIsRefusedExactlyWhenIllFormed : Prop := ∀ w : OpWord,
  (∃ e, decode w = .error e) ↔
    (w.extractLsb' 36 4 = 0x0 ∨ 0x7 ≤ w.extractLsb' 36 4 ∨
     (w.extractLsb' 36 4 = 0x1 ∧ ∃ k, 33 ≤ k ∧ k ≤ 35 ∧ w.getLsbD k = true) ∨
     (w.extractLsb' 36 4 = 0x2 ∧ ∃ k, k ≤ 35 ∧ w.getLsbD k = true) ∨
     (w.extractLsb' 36 4 = 0x3 ∧ ∃ k, 5 ≤ k ∧ k ≤ 35 ∧ w.getLsbD k = true) ∨
     (w.extractLsb' 36 4 = 0x4 ∧ ∃ k, k ≤ 35 ∧ w.getLsbD k = true) ∨
     (w.extractLsb' 36 4 = 0x5 ∧ ∃ k, 16 ≤ k ∧ k ≤ 35 ∧ w.getLsbD k = true) ∨
     (w.extractLsb' 36 4 = 0x6 ∧ ∃ k, 24 ≤ k ∧ k ≤ 35 ∧ w.getLsbD k = true))

/-- The decoder accepts exactly the words that fit a row of spec/opcode_table.json (match and mask), offered by the row's agent (R78, R205). -/
def Obligations.DecoderAgreesWithTheOpcodeTable : Prop := ∀ o : Offer,
  ((∃ i, decode o.word = .ok i) ↔ wordWellFormed o.word = true) ∧
  ((∃ i, decodeOffer o = .ok i) ↔ o.wellFormed = true)

/-- R81: the words of the assembler's operations as numbers. -/
def Obligations.EncodedWordHasTheAssemblerValue : Prop :=
  (∀ t : Ticks, (encode (.edge .falling t)).toNat = 0x10_0000_0000 + t.toNat) ∧
  (∀ t : Ticks, (encode (.edge .rising t)).toNat = 0x11_0000_0000 + t.toNat) ∧
  (encode .poll).toNat = 0x20_0000_0000 ∧
  (∀ i : BitVec 5, (encode (.readRow i)).toNat = 0x30_0000_0000 + i.toNat) ∧
  (encode .init).toNat = 0x40_0000_0000 ∧
  (∀ st a : Byte, (encode (.handleA st a)).toNat = 0x50_0000_0000 + st.toNat * 256 + a.toNat) ∧
  (∀ g : GameKeys, (encode (.handleB g)).toNat = 0x60_0000_0000 + g.toNat)

/-- R90: the fields of the 41-bit packet word, the words of the packets a full accumulator gives, and that the word and the record hold the
same. -/
def Obligations.PacketWordHoldsThePacket : Prop :=
  (∀ p : Packet, p.toWord.getLsbD 40 = p.isModeB ∧ p.toWord.extractLsb' 32 8 = p.status ∧ p.toWord.extractLsb' 24 8 = p.ascii ∧
    p.toWord.extractLsb' 0 24 = p.gameKeys ∧ Packet.ofWord p.toWord = p) ∧
  (∀ w : PacketWord, (Packet.ofWord w).toWord = w) ∧
  (∀ x : BitVec 24, (assemble .a x).toWord = 0#1 ++ x.extractLsb' 8 8 ++ x.extractLsb' 0 8 ++ 0#24) ∧
  ∀ x : BitVec 24, (assemble .b x).toWord = 1#1 ++ 0xFF#8 ++ 0xFF#8 ++ x

/-! ### Steps -/

/-- R205: a word that spells an operation of the agent that offers it is run; the step only takes it off the words offered. -/
def Obligations.StepRunsTheDecodedInstruction : Prop :=
  ∀ (s : State) (o : Offer) (rest : List Offer) (i : Instr), s.pending = o :: rest → decode o.word = .ok i → i.agent = o.agent →
    step s = exec i { s with pending := rest }

/-- R223: an ill-formed word, or a word offered to the wrong agent, changes no hardware state and sets `refused`. That the refused step
returns nothing is the model's choice (log entry 3). -/
def Obligations.StepRefusesIllFormedAndWrongAgentWords : Prop :=
  ∀ (s : State) (o : Offer) (rest : List Offer), s.pending = o :: rest →
    ((∃ e, decode o.word = .error e) ∨ (∃ i, decode o.word = .ok i ∧ i.agent ≠ o.agent)) →
    step s = .next { s with pending := rest, refused := true, output := .nothing }

/-- R232: with nothing offered the block is idle and keeps all state. -/
def Obligations.StepWithNothingOfferedKeepsTheState : Prop := ∀ s : State, s.pending = [] → step s = .next s

/-- R220: every operation answers a next state. That a step with nothing offered (log entry 2) and a step that refuses its word (log entry 4)
answer one too is the model's reading. -/
def Obligations.EveryOperationAndStepAnswersANextState : Prop :=
  (∀ (i : Instr) (s : State), ∃ t, exec i s = .next t) ∧ ∀ s : State, ∃ t, step s = .next t

/-- R40: the refusal mark is set when a word is refused and is never cleared, not even by INIT. -/
def Obligations.RefusedMarkIsSetExactlyByARefusedWord : Prop :=
  ∀ s t : State, step s = .next t →
    (t.refused = true ↔ s.refused = true ∨ ∃ o rest e, s.pending = o :: rest ∧ decodeOffer o = .error e)

/-- R39: no operation writes a parameter. -/
def Obligations.NoStepWritesTheParameters : Prop := ∀ s t : State, step s = .next t → t.cfg = s.cfg

/-- R80: EDGE and INIT return nothing, POLL, HANDLE_A and HANDLE_B return `changed`, READ_ROW returns a row. -/
def Obligations.EachOperationReturnsItsKindOfValue : Prop :=
  ∀ (s t : State) (i : Instr), exec i s = .next t → match i with
    | .edge _ _ => t.output = .nothing
    | .poll => ∃ b, t.output = .changed b
    | .readRow _ => ∃ v, t.output = .row v
    | .init => t.output = .nothing
    | .handleA _ _ => ∃ b, t.output = .changed b
    | .handleB _ => ∃ b, t.output = .changed b

/-! ### EDGE -/

/-- R100, its first clause (decision D4): an EDGE whose polarity is not armed is ignored, its ticks included. -/
def Obligations.EdgeOfUnarmedPolarityIsIgnored : Prop :=
  ∀ (s : State) (pol : Polarity) (t : Ticks), pol ≠ s.dec.armed → exec (.edge pol t) s = .next { s with output := .nothing }

/-- R100: a captured edge arms the opposite polarity, any other leaves it; so captured edges strictly alternate, and a second EDGE of one
polarity in a row changes nothing. -/
def Obligations.CapturedEdgesStrictlyAlternate : Prop :=
  ∀ (s : State) (pol : Polarity) (t t' : Ticks), ∃ u, exec (.edge pol t) s = .next u ∧ u.dec.armed = opposite pol ∧
    exec (.edge pol t') u = .next u

/-- R101: a captured falling edge in Idle arms the rising edge and changes nothing else, whatever its ticks. -/
def Obligations.EdgeFallingInIdleOnlyArmsTheRisingEdge : Prop :=
  ∀ (s : State) (t : Ticks), s.dec.phase = .idle → s.dec.armed = .falling →
    exec (.edge .falling t) s = .next { s with dec := { s.dec with armed := .rising }, output := .nothing }

/-- R102: a captured rising edge in Idle: the header windows are tested A first; a match enters the receiving phase with everything cleared
and the header-high allowance; no match stays Idle. -/
def Obligations.EdgeRisingInIdleClassifiesTheHeader : Prop :=
  ∀ (s : State) (t : Ticks), s.dec.phase = .idle → s.dec.armed = .rising →
    exec (.edge .rising t) s = .next { s with
      dec := if inWindow t s.cfg.windows.aHdrLow = true then ⟨.receivingA, .falling, 0, 0, true⟩
        else if inWindow t s.cfg.windows.bHdrLow = true then ⟨.receivingB, .falling, 0, 0, true⟩
        else { s.dec with armed := .falling }
      output := .nothing }

/-- R103, with R104's shift: a captured falling edge while receiving is the header high (while the allowance holds), else a 0 bit, else a
1 bit (while the frame is not full), else the frame is aborted. The four clauses exclude each other. -/
def Obligations.EdgeHighSampleIsHeaderHighOrABitOrAborts : Prop :=
  ∀ (s : State) (m : Mode) (t : Ticks), s.dec.phase = receiving m → s.dec.armed = .falling →
    let header := s.dec.hdrHiOk = true ∧ inWindow t (hdrHigh s.cfg.windows m) = true
    let zero := s.dec.bitcnt < frameLen m ∧ inWindow t (bit0High s.cfg.windows m) = true
    let one := s.dec.bitcnt < frameLen m ∧ inWindow t (bit1High s.cfg.windows m) = true
    (header → exec (.edge .falling t) s =
      .next { s with dec := { s.dec with armed := .rising, hdrHiOk := false }, output := .nothing }) ∧
    (¬ header → zero → exec (.edge .falling t) s =
      .next { s with dec := ⟨s.dec.phase, .rising, s.dec.bitcnt + 1, s.dec.acc <<< 1, false⟩, output := .nothing }) ∧
    (¬ header → ¬ zero → one → exec (.edge .falling t) s =
      .next { s with dec := ⟨s.dec.phase, .rising, s.dec.bitcnt + 1, (s.dec.acc <<< 1) ||| 1, false⟩, output := .nothing }) ∧
    (¬ header → ¬ zero → ¬ one → exec (.edge .falling t) s =
      .next { s with dec := ⟨.idle, .rising, 0, 0, false⟩, output := .nothing })

/-- R105, R106, R140: a captured rising edge while receiving: out of the bit-low window the frame is aborted; in the window a full frame is
published over whatever the mailbox held and the decoder returns to Idle; otherwise the frame goes on. -/
def Obligations.EdgeLowSampleContinuesPublishesOrAborts : Prop :=
  ∀ (s : State) (m : Mode) (t : Ticks), s.dec.phase = receiving m → s.dec.armed = .rising →
    (inWindow t s.cfg.windows.bitLow = false → exec (.edge .rising t) s =
      .next { s with dec := ⟨.idle, .falling, 0, 0, false⟩, output := .nothing }) ∧
    (inWindow t s.cfg.windows.bitLow = true → s.dec.bitcnt ≠ frameLen m → exec (.edge .rising t) s =
      .next { s with dec := { s.dec with armed := .falling }, output := .nothing }) ∧
    (inWindow t s.cfg.windows.bitLow = true → s.dec.bitcnt = frameLen m → m = .a → exec (.edge .rising t) s =
      .next { s with dec := ⟨.idle, .falling, 0, 0, false⟩
                     mbx := ⟨true, ⟨false, s.dec.acc.extractLsb' 8 8, s.dec.acc.extractLsb' 0 8, 0⟩⟩
                     output := .nothing }) ∧
    (inWindow t s.cfg.windows.bitLow = true → s.dec.bitcnt = frameLen m → m = .b → exec (.edge .rising t) s =
      .next { s with dec := ⟨.idle, .falling, 0, 0, false⟩
                     mbx := ⟨true, ⟨true, 0xFF, 0xFF, s.dec.acc⟩⟩
                     output := .nothing })

/-- R109: EDGE never reads or writes the Session State or the matrix. Two states that agree on the decoder, the mailbox and the parameters
agree on the decoder and the mailbox after any EDGE, whatever the interpreter holds. -/
def Obligations.EdgeNeitherReadsNorWritesTheInterpreter : Prop :=
  ∀ (s u : State) (pol : Polarity) (t : Ticks), ∃ s' u',
    exec (.edge pol t) s = .next s' ∧ exec (.edge pol t) u = .next u' ∧
    s'.ses = s.ses ∧ s'.M = s.M ∧ s'.refused = s.refused ∧ s'.cfg = s.cfg ∧ s'.pending = s.pending ∧ s'.output = .nothing ∧
    (u.dec = s.dec → u.mbx = s.mbx → u.cfg = s.cfg → u'.dec = s'.dec ∧ u'.mbx = s'.mbx)

/-- R108 (d), with R105: EDGE writes the mailbox only when a valid low time completes a frame of exactly LEN bits, and then publishes the
packet of the accumulator. -/
def Obligations.EdgePublishesOnlyFullFrames : Prop :=
  ∀ (s s' : State) (pol : Polarity) (t : Ticks), exec (.edge pol t) s = .next s' →
    s'.mbx = s.mbx ∨
    ∃ m, pol = .rising ∧ s.dec.armed = .rising ∧ s.dec.phase = receiving m ∧ s.dec.bitcnt = frameLen m ∧
      inWindow t s.cfg.windows.bitLow = true ∧ s'.mbx = ⟨true, assemble m s.dec.acc⟩ ∧ s'.dec = Decoder.reset

/-- R108 (a): from Idle, edges of which no rising one has its ticks in a header-low window emit no packet and leave the decoder Idle. -/
def Obligations.EdgesWithoutAHeaderEmitNoPacket : Prop :=
  ∀ (s : State) (edges : List (Polarity × Ticks)), s.dec.phase = .idle →
    (∀ t, (.rising, t) ∈ edges → inWindow t s.cfg.windows.aHdrLow = false ∧ inWindow t s.cfg.windows.bHdrLow = false) →
    ∃ s', execAll (edges.map fun e => .edge e.1 e.2) s = .next s' ∧ s'.dec.phase = .idle ∧ s'.mbx = s.mbx ∧
      s'.ses = s.ses ∧ s'.M = s.M

/-- R108 (b): a conforming Mode A frame is published as one Mode A packet with the transmitted status and ascii, at its last edge and not
before. The premise that the bit windows of the mode are disjoint holds of the default windows (R87). -/
def Obligations.ConformingModeAFrameIsPublished : Prop :=
  ∀ (s : State) (st a : Byte) (f : FrameTimes), s.dec.phase = .idle → s.dec.armed = .falling →
    s.cfg.windows.conforming = true → s.cfg.windows.aBit0High.disjoint s.cfg.windows.aBit1High = true →
    f.conforms s.cfg.windows .a (bitsA st a) = true →
    ∃ u t, execAll f.edges.dropLast s = .next u ∧ u.mbx = s.mbx ∧
      execAll f.edges s = .next t ∧ t.mbx = ⟨true, ⟨false, st, a, 0⟩⟩ ∧ t.dec = ⟨.idle, .falling, 0, 0, false⟩ ∧
      t.ses = s.ses ∧ t.M = s.M

/-- R108 (c): a conforming Mode B frame is published as one Mode B packet with the transmitted game keys, at its last edge and not before. -/
def Obligations.ConformingModeBFrameIsPublished : Prop :=
  ∀ (s : State) (g : GameKeys) (f : FrameTimes), s.dec.phase = .idle → s.dec.armed = .falling →
    s.cfg.windows.conforming = true → s.cfg.windows.bBit0High.disjoint s.cfg.windows.bBit1High = true →
    f.conforms s.cfg.windows .b (bitsB g) = true →
    ∃ u t, execAll f.edges.dropLast s = .next u ∧ u.mbx = s.mbx ∧
      execAll f.edges s = .next t ∧ t.mbx = ⟨true, ⟨true, 0xFF, 0xFF, g⟩⟩ ∧ t.dec = ⟨.idle, .falling, 0, 0, false⟩ ∧
      t.ses = s.ses ∧ t.M = s.M

/-- R108 (e): a frame whose header high lies in a bit window instead of the header-high window is decoded with that bit as one extra leading
bit. It completes one bit pair early: after all edges but three the mailbox is as before, with the next edge it holds the packet and the
decoder is Idle, and the last two edges arrive in Idle and change neither. The premises on the last low time hold of the default windows. -/
def Obligations.HeaderHighInABitWindowIsAnExtraLeadingBit : Prop :=
  ∀ (s : State) (m : Mode) (b : Bool) (bs : List Bool) (f : FrameTimes), s.dec.phase = .idle → s.dec.armed = .falling →
    s.cfg.windows.conforming = true → (bit0High s.cfg.windows m).disjoint (bit1High s.cfg.windows m) = true →
    bs.length = (frameLen m).toNat →
    inWindow f.headLow (hdrLow s.cfg.windows m) = true → inWindow f.headHigh (hdrHigh s.cfg.windows m) = false →
    inWindow f.headHigh (bitHigh s.cfg.windows m b) = true → bitsConform s.cfg.windows m bs f.bits = true →
    inWindow f.last s.cfg.windows.bitLow = true →
    inWindow f.last s.cfg.windows.aHdrLow = false → inWindow f.last s.cfg.windows.bHdrLow = false →
    ∃ before early last, execAll (f.edges.take (f.edges.length - 3)) s = .next before ∧ before.mbx = s.mbx ∧
      execAll (f.edges.take (f.edges.length - 2)) s = .next early ∧
      early.mbx = ⟨true, assemble m (bitsValue (b :: bs.dropLast))⟩ ∧ early.dec = ⟨.idle, .falling, 0, 0, false⟩ ∧
      execAll f.edges s = .next last ∧ last.mbx = early.mbx ∧ last.dec = early.dec

/-- From the wire to the matrix (95_test_vectors.md EX-8, for every status, ascii and conforming frame): 36 EDGEs of a conforming Mode A
frame and a POLL, offered by their agents, leave the matrix and the Session State as HANDLE_A of the transmitted bytes does, and an
empty mailbox. -/
def Obligations.FrameThenPollIsHandleA : Prop :=
  ∀ (s : State) (st a : Byte) (f : FrameTimes) (rest : List Offer), s.dec.phase = .idle → s.dec.armed = .falling →
    s.cfg.windows.conforming = true → s.cfg.windows.aBit0High.disjoint s.cfg.windows.aBit1High = true →
    f.conforms s.cfg.windows .a (bitsA st a) = true →
    s.pending = f.edges.map Instr.offer ++ Instr.poll.offer :: rest →
    ∃ t u, run 37 s = .next t ∧ exec (.handleA st a) s = .next u ∧ t.M = u.M ∧ t.ses = u.ses ∧ t.output = u.output ∧
      t.dec = ⟨.idle, .falling, 0, 0, false⟩ ∧ t.mbx = ⟨false, ⟨false, st, a, 0⟩⟩ ∧ t.refused = s.refused ∧ t.cfg = s.cfg ∧
      t.pending = rest

/-- R82, R83: FRAME_A expands to 36 EDGEs and FRAME_B to 52, and the nominal frames conform to the default windows and carry the operands' bits. -/
def Obligations.PseudoOperationsExpandToConformingFrames : Prop :=
  ∀ (st a : Byte) (g : GameKeys) (t0 : Ticks),
    (frameA st a t0).length = 36 ∧ (frameB g t0).length = 52 ∧
    (nominalA st a t0).conforms defaultWindows .a (bitsA st a) = true ∧
    (nominalB g t0).conforms defaultWindows .b (bitsB g) = true

/-- R253: with the default windows the shortest conforming frame lasts 17050 ticks in Mode A and 11575 in Mode B. -/
def Obligations.ShortestConformingFrameDurations : Prop :=
  (∀ (bs : List Bool) (f : FrameTimes), bs.length = 16 → f.conforms defaultWindows .a bs = true → 17050 ≤ f.duration) ∧
  (∃ (bs : List Bool) (f : FrameTimes), bs.length = 16 ∧ f.conforms defaultWindows .a bs = true ∧ f.duration = 17050) ∧
  (∀ (bs : List Bool) (f : FrameTimes), bs.length = 24 → f.conforms defaultWindows .b bs = true → 11575 ≤ f.duration) ∧
  (∃ (bs : List Bool) (f : FrameTimes), bs.length = 24 ∧ f.conforms defaultWindows .b bs = true ∧ f.duration = 11575)

/-- R87: the overlaps of the default windows. -/
def Obligations.DefaultWindowOverlaps : Prop :=
  ∀ t : Ticks,
    ¬ (inWindow t defaultWindows.aHdrLow = true ∧ inWindow t defaultWindows.bHdrLow = true) ∧
    ¬ (inWindow t defaultWindows.aBit0High = true ∧ inWindow t defaultWindows.aBit1High = true) ∧
    ¬ (inWindow t defaultWindows.bBit0High = true ∧ inWindow t defaultWindows.bBit1High = true) ∧
    ((inWindow t defaultWindows.aHdrHigh = true ∧ inWindow t defaultWindows.aBit0High = true) ↔ t = 725) ∧
    ((inWindow t defaultWindows.bHdrHigh = true ∧ inWindow t defaultWindows.bBit0High = true) ↔ t = 225) ∧
    defaultWindows.bitLow = defaultWindows.bBit0High

/-! ### The mailbox and POLL -/

/-- R141, R142: after two publishes the next take answers the second packet, clears `ready` and keeps the slot; a take with nothing published
answers none and changes nothing. -/
def Obligations.TakeAnswersTheLastPublishedPacketOnce : Prop :=
  ∀ (p q : Packet) (m : Mailbox),
    take (publish q (publish p m)) = (some q, ⟨false, q⟩) ∧
    (take (take m).2).1 = none ∧
    (m.ready = false → take m = (none, m))

/-- R201: POLL with an empty mailbox changes nothing and returns false; with a packet waiting it changes the interpreter as HANDLE_B or
HANDLE_A of that packet does, clears `ready`, keeps the slot, and returns whether some cell of the matrix changed. -/
def Obligations.PollDrainsTheMailboxAndReportsTheChange : Prop :=
  ∀ s : State,
    (s.mbx.ready = false → exec .poll s = .next { s with output := .changed false }) ∧
    (s.mbx.ready = true → ∃ u b, exec (if s.mbx.slot.isModeB then .handleB s.mbx.slot.gameKeys else .handleA s.mbx.slot.status s.mbx.slot.ascii) s =
        .next u ∧
      exec .poll s = .next { u with mbx := { s.mbx with ready := false }, output := .changed b } ∧
      (b = true ↔ ∃ r c, cell u.M r c ≠ cell s.M r c))

/-- R143: a published packet is handled at most once. A POLL leaves `ready` false and a POLL right after it changes nothing; `ready` then stays
false, and a POLL handles nothing, until an EDGE completes a frame and publishes its packet. -/
def Obligations.HandledPacketIsNotHandledAgain : Prop :=
  (∀ s : State, ∃ t, exec .poll s = .next t ∧ t.mbx.ready = false ∧ exec .poll t = .next { t with output := .changed false }) ∧
  ∀ (s t : State) (i : Instr), s.mbx.ready = false → exec i s = .next t →
    t.mbx.ready = false ∨
    ∃ (ticks : Ticks) (m : Mode), i = .edge .rising ticks ∧ s.dec.armed = .rising ∧ s.dec.phase = receiving m ∧
      s.dec.bitcnt = frameLen m ∧ inWindow ticks s.cfg.windows.bitLow = true ∧ t.mbx = ⟨true, assemble m s.dec.acc⟩

/-- R201, R203, R204: the value returned says whether some cell of the matrix differs from its value before. -/
def Obligations.ChangedReportsADifferingCell : Prop :=
  ∀ (s t : State) (i : Instr), (i = .poll ∨ (∃ st a, i = .handleA st a) ∨ ∃ g, i = .handleB g) → exec i s = .next t →
    ∃ b, t.output = .changed b ∧ (b = true ↔ ∃ r c, cell t.M r c ≠ cell s.M r c)

/-! ### READ_ROW, INIT -/

/-- R202: READ_ROW returns the row, or 0 for the indices 19..31, and writes no state; while the hardwired cells are 0 (R36, an invariant), their
bits read 0. -/
def Obligations.ReadRowReturnsTheRowAndWritesNothing : Prop :=
  ∀ (s : State) (i : BitVec 5),
    (∀ r : Fin 19, i.toNat = r.val → exec (.readRow i) s = .next { s with output := .row s.M[r] }) ∧
    (19 ≤ i.toNat → exec (.readRow i) s = .next { s with output := .row 0x0000 }) ∧
    (hardwiredZero s.M → (∃ v, exec (.readRow 16) s = .next { s with output := .row v } ∧ v.getLsbD 15 = false) ∧
      ∃ v, exec (.readRow 18) s = .next { s with output := .row v } ∧ ∀ k, 8 ≤ k → v.getLsbD k = false)

/-- R200, R41: INIT puts the decoder, the mailbox, the Session State and every cell at the reset value, and leaves `refused`, the parameters and
the words offered. -/
def Obligations.InitRestoresTheResetValues : Prop :=
  ∀ s : State, ∃ t, exec .init s = .next t ∧
    t.dec = ⟨.idle, .falling, 0, 0, false⟩ ∧ t.mbx = ⟨false, ⟨false, 0, 0, 0⟩⟩ ∧ t.ses = ⟨.a, 0, 0x00, false⟩ ∧
    (∀ r c, cell t.M r c = false) ∧ t.refused = s.refused ∧ t.cfg = s.cfg ∧ t.pending = s.pending ∧ t.output = .nothing

/-- R250: hardware reset gives the state INIT gives: Idle armed for a falling edge, an empty mailbox, Mode A with nothing registered, every cell
0. -/
def Obligations.ResetIsTheStateInitGives : Prop :=
  (∀ s : State, ∃ t, exec .init s = .next t ∧
    State.reset.dec = t.dec ∧ State.reset.mbx = t.mbx ∧ State.reset.ses = t.ses ∧ State.reset.M = t.M) ∧
  State.reset.dec = ⟨.idle, .falling, 0, 0, false⟩ ∧ State.reset.mbx = ⟨false, ⟨false, 0, 0, 0⟩⟩ ∧ State.reset.ses = ⟨.a, 0, 0x00, false⟩ ∧
  (∀ r c, cell State.reset.M r c = false) ∧ State.reset.refused = false

/-! ### HANDLE -/

/-- R151, R204, R35: HANDLE_B writes rows 17 and 18, the snapshot and the mode, and nothing else; it returns whether some cell changed. -/
def Obligations.HandleBWritesTheGameKeyRows : Prop :=
  ∀ (s : State) (g : GameKeys), ∃ t b, exec (.handleB g) s = .next t ∧ onlyInterpChanged s t ∧
    t.ses = { s.ses with snapshot := g, currentMode := .b } ∧
    (∀ c : Fin 16, cell t.M 17 c = g.getLsbD c) ∧
    (∀ c : Fin 16, cell t.M 18 c = (decide (c.val < 8) && g.getLsbD (16 + c))) ∧
    (∀ (r : Fin 19) (c : Fin 16), r ≠ 17 → r ≠ 18 → cell t.M r c = cell s.M r c) ∧
    t.output = .changed b ∧ (b = true ↔ ∃ r c, cell t.M r c ≠ cell s.M r c)

/-- R60 with R35: a READ_ROW after HANDLE_B sees the game keys it wrote. -/
def Obligations.ReadRowSeesTheGameKeysJustHandled : Prop :=
  ∀ (s : State) (g : GameKeys), ∃ t u v, exec (.handleB g) s = .next t ∧ exec (.readRow 17) t = .next u ∧ exec (.readRow 18) t = .next v ∧
    u.output = .row (g.extractLsb' 0 16) ∧ v.output = .row ((g.extractLsb' 16 8).setWidth 16)

/-- R155: a ten-key code in TENKEY_MAP registers its image, with no arbitration. -/
def Obligations.HandleATenKeyRemapRegistersTheImage : Prop :=
  ∀ (s : State) (st c0 r : Byte), tenkey st = true → tenkeyMap s.cfg.tables c0 = some r →
    ∃ t, exec (.handleA st c0) s = .next t ∧ onlyInterpChanged s t ∧ cellsAfterModeA st s t (isCellOf r) ∧
      t.ses = ⟨s.ses.currentMode, s.ses.snapshot, r, isRepeat st && s.ses.extActive⟩

/-- R156: a special ten-key code other than numpad-enter sets its extended bit and `ext_active`; `last_ascii` is unchanged. -/
def Obligations.HandleATenKeySpecialCodeSetsItsExtendedBit : Prop :=
  ∀ (s : State) (st c0 : Byte) (e : Fin 10), tenkey st = true → tenkeyMap s.cfg.tables c0 = none →
    c0 ≠ s.cfg.tables.numpadEnter → extMap s.cfg.tables c0 = some e →
    ∃ t, exec (.handleA st c0) s = .next t ∧ onlyInterpChanged s t ∧ cellsAfterModeA st s t (isExtCell e) ∧
      t.ses = ⟨s.ses.currentMode, s.ses.snapshot, s.ses.lastAscii, true⟩

/-- R157: numpad-enter runs the mode detection, and sets its extended bit unless Mode B's snapshot holds the key. -/
def Obligations.HandleANumpadEnterArbitrates : Prop :=
  ∀ (s : State) (st c0 : Byte) (e : Fin 10), tenkey st = true → tenkeyMap s.cfg.tables c0 = none →
    c0 = s.cfg.tables.numpadEnter → extMap s.cfg.tables c0 = some e →
    ∃ t, exec (.handleA st c0) s = .next t ∧ onlyInterpChanged s t ∧
      (SwitchAccepted s.cfg.tables st c0 s.ses →
        cellsAfterModeA st s t (isExtCell e) ∧ t.ses = ⟨.a, s.ses.snapshot, s.ses.lastAscii, true⟩) ∧
      (¬ SwitchAccepted s.cfg.tables st c0 s.ses → HeldInModeB s.cfg.tables c0 s.ses →
        cellsAfterModeA st s t noCell ∧
        t.ses = ⟨s.ses.currentMode, s.ses.snapshot, s.ses.lastAscii, isRepeat st && s.ses.extActive⟩) ∧
      (¬ SwitchAccepted s.cfg.tables st c0 s.ses → ¬ HeldInModeB s.cfg.tables c0 s.ses →
        cellsAfterModeA st s t (isExtCell e) ∧ t.ses = ⟨s.ses.currentMode, s.ses.snapshot, s.ses.lastAscii, true⟩)

/-- R158 (decision D11): a ten-key code in neither table is registered unchanged, with no arbitration. -/
def Obligations.HandleATenKeyOtherCodeRegistersItself : Prop :=
  ∀ (s : State) (st c0 : Byte), tenkey st = true → tenkeyMap s.cfg.tables c0 = none →
    c0 ≠ s.cfg.tables.numpadEnter → extMap s.cfg.tables c0 = none →
    ∃ t, exec (.handleA st c0) s = .next t ∧ onlyInterpChanged s t ∧ cellsAfterModeA st s t (isCellOf c0) ∧
      t.ses = ⟨s.ses.currentMode, s.ses.snapshot, c0, isRepeat st && s.ses.extActive⟩

/-- R159: ctrl+C and ctrl+R (ctrl held, shift not held, not ten-key) register 0x43 and 0x52, with no arbitration. The four codes are the
spec's general knowledge (log entry 11). -/
def Obligations.HandleACtrlCollisionRegistersTheLetter : Prop :=
  ∀ (s : State) (st c0 f : Byte), tenkey st = false → ctrl st = true → shift st = false →
    (c0 = 0x03 ∧ f = 0x43) ∨ (c0 = 0x12 ∧ f = 0x52) →
    ∃ t, exec (.handleA st c0) s = .next t ∧ onlyInterpChanged s t ∧ cellsAfterModeA st s t (isCellOf f) ∧
      t.ses = ⟨s.ses.currentMode, s.ses.snapshot, f, isRepeat st && s.ses.extActive⟩

/-- R160-R164: the general path. The tentative code is the kana remap in Mode B; an accepted switch sets Mode A and registers the original
code; otherwise a code held in Mode B's snapshot is suppressed, and any other tentative code is registered. -/
def Obligations.HandleAGeneralPathArbitrates : Prop :=
  ∀ (s : State) (st c0 code : Byte), tenkey st = false →
    ¬ (ctrl st = true ∧ shift st = false ∧ (c0 = 0x03 ∨ c0 = 0x12)) →
    code = (if s.ses.currentMode = .b ∧ kana st = true ∧ 0xA0 ≤ c0 ∧ c0 ≤ 0xDF
      then kanaMap s.cfg.tables (((c0 - 0xA0) >>> 4).setWidth 2) (c0.extractLsb' 0 4) else c0) →
    ∃ t, exec (.handleA st c0) s = .next t ∧ onlyInterpChanged s t ∧
      (SwitchAccepted s.cfg.tables st code s.ses →
        cellsAfterModeA st s t (isCellOf c0) ∧ t.ses = ⟨.a, s.ses.snapshot, c0, isRepeat st && s.ses.extActive⟩) ∧
      (¬ SwitchAccepted s.cfg.tables st code s.ses → HeldInModeB s.cfg.tables code s.ses →
        cellsAfterModeA st s t noCell ∧
        t.ses = ⟨s.ses.currentMode, s.ses.snapshot, s.ses.lastAscii, isRepeat st && s.ses.extActive⟩) ∧
      (¬ SwitchAccepted s.cfg.tables st code s.ses → ¬ HeldInModeB s.cfg.tables code s.ses →
        cellsAfterModeA st s t (isCellOf code) ∧
        t.ses = ⟨s.ses.currentMode, s.ses.snapshot, code, isRepeat st && s.ses.extActive⟩)

/-- R153: a repeat packet clears nothing and leaves `ext_active`; a genuine new key clears the ten extended cells if `ext_active` is set, else
the cell of `last_ascii`, and clears `ext_active`. HANDLE_A runs this step first, then one branch, then the modifiers (R154). -/
def Obligations.ClearPreviousClearsTheHeldKeyPath : Prop :=
  (∀ (st : Byte) (k : Interp),
    (isRepeat st = true → clearPrevious st k = k) ∧
    (isRepeat st = false → (clearPrevious st k).ses = { k.ses with extActive := false } ∧
      ∀ r c, cell (clearPrevious st k).M r c = true ↔
        cell k.M r c = true ∧ ¬ (if k.ses.extActive then r = modRow ∧ 5 ≤ c.val ∧ c.val ≤ 14 else isCellOf k.ses.lastAscii r c))) ∧
  ∀ (s : State) (st a : Byte), ∃ t, exec (.handleA st a) s = .next t ∧
    t.interp = registerMods st (branch s.cfg.tables st a (clearPrevious st s.interp))

/-- R165: every HANDLE_A assigns the five modifier cells, whatever branch ran; the step that assigns them leaves every other cell. -/
def Obligations.HandleAAssignsTheModifierCells : Prop :=
  (∀ (s : State) (st a : Byte), ∃ t, exec (.handleA st a) s = .next t ∧
    cell t.M 16 0 = ctrl st ∧ cell t.M 16 1 = shift st ∧ cell t.M 16 2 = kana st ∧ cell t.M 16 3 = caps st ∧ cell t.M 16 4 = graph st) ∧
  ∀ (st : Byte) (M : Matrix) (r : Fin 19) (c : Fin 16), ¬ (r = 16 ∧ c.val < 5) → cell (setMods st M) r c = cell M r c

/-- The frame of HANDLE_A (R153-R166): the decoder, the mailbox, the snapshot, the game-key rows and the hardwired cell are unchanged. Every
other cell is exactly as steps 1 to 5 leave it, whatever branch ran: a cell is cleared only by step 1 or as a modifier, and a newly set cell
outside the modifiers is the one the packet's branch registers. -/
def Obligations.HandleALeavesTheRestUnchanged : Prop :=
  ∀ (s t : State) (st a : Byte), exec (.handleA st a) s = .next t →
    onlyInterpChanged s t ∧ t.ses.snapshot = s.ses.snapshot ∧
    (∀ c, cell t.M 17 c = cell s.M 17 c ∧ cell t.M 18 c = cell s.M 18 c) ∧ cell t.M 16 15 = cell s.M 16 15 ∧
    cellsAfterModeA st s t (Registers s.cfg.tables st a s.ses) ∧
    (∀ r c, cell s.M r c = true → cell t.M r c = false → clearedCell st s.ses r c ∨ (r = modRow ∧ c.val < 5)) ∧
    ∀ r c, ¬ (r = modRow ∧ c.val < 5) → cell s.M r c = false → cell t.M r c = true → Registers s.cfg.tables st a s.ses r c

/-- R169: arbitration in Mode B for a code K with game bit k, no kana remap, not ten-key, not a ctrl collision. -/
def Obligations.ModeBArbitrationOfAnAmbiguousCode : Prop :=
  ∀ (s : State) (st key : Byte) (k : Fin 24), s.ses.currentMode = .b → tenkey st = false →
    (kana st = false ∨ key < 0xA0 ∨ 0xDF < key) → ¬ (ctrl st = true ∧ shift st = false ∧ (key = 0x03 ∨ key = 0x12)) →
    gameBit s.cfg.tables key = some k →
    ∃ t, exec (.handleA st key) s = .next t ∧
      (s.ses.snapshot.getLsbD k = false → (¬ (key = 0x1B ∨ key = 0x0D ∨ key = 0x09) ∨ ctrl st = true) →
        t.ses.currentMode = .a ∧ cell t.M (asciiRow key) (asciiCol key) = true ∧ t.ses.lastAscii = key) ∧
      (s.ses.snapshot.getLsbD k = true →
        t.ses.currentMode = .b ∧ t.ses.lastAscii = s.ses.lastAscii ∧
        (∀ c : Byte, cell t.M (asciiRow c) (asciiCol c) = true → cell s.M (asciiRow c) (asciiCol c) = true) ∧
        cell t.M 16 0 = ctrl st ∧ cell t.M 16 1 = shift st ∧ cell t.M 16 2 = kana st ∧ cell t.M 16 3 = caps st ∧
        cell t.M 16 4 = graph st) ∧
      (s.ses.snapshot.getLsbD k = false → (key = 0x1B ∨ key = 0x0D ∨ key = 0x09) → ctrl st = false →
        t.ses.currentMode = .b ∧ cell t.M (asciiRow key) (asciiCol key) = true ∧ t.ses.lastAscii = key)

/-- R168: handling a Mode A packet again with the repeat bit asserted leaves the matrix and the Session State as the first handling did, and
reports no change. -/
def Obligations.RepeatOfAPacketChangesNothing : Prop :=
  ∀ (s : State) (st a : Byte), ∃ t u, exec (.handleA st a) s = .next t ∧ exec (.handleA (st &&& 0xDF) a) t = .next u ∧
    u.M = t.M ∧ u.ses = t.ses ∧ u.output = .changed false

/-- 95_test_vectors.md EX-7 with 00_scope.md R8: under conforming tables each ten-key code of 0x2A..0x39 has an image; distinct codes register
distinct cells, none of them a cell of the top-row digits 0x30..0x39. -/
def Obligations.TenKeyImagesAreDistinctAndAvoidTheDigits : Prop :=
  ∀ (s : State) (st c : Byte), s.cfg.tables.conforming = true → tenkey st = true → 0x2A ≤ c → c ≤ 0x39 →
    ∃ r t, tenkeyMap s.cfg.tables c = some r ∧ exec (.handleA st c) s = .next t ∧ t.ses.lastAscii = r ∧
      cell t.M (asciiRow r) (asciiCol r) = true ∧
      (∀ d : Byte, 0x30 ≤ d → d ≤ 0x39 → ¬ isCellOf d (asciiRow r) (asciiCol r)) ∧
      ∀ c' r' : Byte, c' ≠ c → tenkeyMap s.cfg.tables c' = some r' → ¬ isCellOf r' (asciiRow r) (asciiCol r)

/-! ### Whole-machine rules -/

/-- R29: a Mode B packet sets the mode to B, an accepted switch for the code that its packet's path looks up sets it to A, and nothing else
writes it except INIT (which sets A, R41). -/
def Obligations.CurrentModeIsWrittenOnlyAsStated : Prop :=
  ∀ (s t : State) (i : Instr), exec i s = .next t →
    (∀ p, handledPacket i s = some p → p.isModeB = true → t.ses.currentMode = .b) ∧
    (∀ p, handledPacket i s = some p → p.isModeB = false → SwitchesMode s.cfg.tables p.status p.ascii s.ses → t.ses.currentMode = .a) ∧
    (i = .init → t.ses.currentMode = .a) ∧
    (t.ses.currentMode ≠ s.ses.currentMode →
      i = .init ∨ ∃ p, handledPacket i s = some p ∧
        (p.isModeB = true ∨ (p.isModeB = false ∧ SwitchesMode s.cfg.tables p.status p.ascii s.ses)))

/-- R30: the snapshot is the game-key field of the most recent Mode B packet handled; INIT clears it (R41). -/
def Obligations.SnapshotIsTheLastModeBPacketHandled : Prop :=
  ∀ (s t : State) (i : Instr), exec i s = .next t →
    (∀ p, handledPacket i s = some p → p.isModeB = true → t.ses.snapshot = p.gameKeys) ∧
    (∀ p, handledPacket i s = some p → p.isModeB = false → t.ses.snapshot = s.ses.snapshot) ∧
    (handledPacket i s = none → i ≠ .init → t.ses.snapshot = s.ses.snapshot) ∧
    (i = .init → t.ses.snapshot = 0)

/-- R37, R20: the matrix and the Session State are written only by HANDLE and by INIT; the decoder is written only by EDGE and by INIT. -/
def Obligations.EachComponentIsWrittenOnlyByItsOwner : Prop :=
  ∀ (s t : State) (i : Instr), exec i s = .next t → i ≠ .init →
    (handledPacket i s = none → t.M = s.M ∧ t.ses = s.ses) ∧
    (i.agent = .poll → t.dec = s.dec) ∧
    (i.agent = .poll → i ≠ .poll → t.mbx = s.mbx)

/-- R26, R27, R36, R39: every step keeps the block's invariant: the decoder invariants (a) to (d), well-formed packets in the slot, the hardwired
cells 0, conforming parameters. It holds of every state, not only of runs from reset. -/
def Obligations.EveryStepKeepsTheInvariant : Prop := ∀ s t : State, s.Inv → step s = .next t → t.Inv

/-- The invariant holds at reset (R41). The parameters of `State.reset` are the model's choice (log entries 6, 7). -/
def Obligations.InvariantHoldsAtReset : Prop := State.reset.Inv

/-- R103 corner case (d): a full frame waits for its completing low time: no step makes a full frame wait for a falling edge. -/
def Obligations.FullFrameAlwaysWaitsForALowTime : Prop :=
  State.reset.dec.fullWaitsForLow ∧ ∀ s t : State, s.dec.fullWaitsForLow → step s = .next t → t.dec.fullWaitsForLow

/-- R32: while every packet handled is a Mode B packet or a genuine new key, `ext_active` and `last_ascii` jointly identify the one held key
path, and every step keeps it so. -/
def Obligations.GenuineKeysKeepOneKeyPath : Prop :=
  ∀ s t : State, s.interp.OneKeyPath →
    (∀ o rest i p, s.pending = o :: rest → decodeOffer o = .ok i → handledPacket i s = some p → p.genuine) →
    step s = .next t → t.interp.OneKeyPath

/-- R32's invariant holds of the reset state (R41: `ext_active` false, `last_ascii` 0x00, every cell 0). -/
def Obligations.OneKeyPathHoldsAtReset : Prop := State.reset.interp.OneKeyPath

/-- R55: the mailbox is all the agents share. An EDGE and a READ_ROW, HANDLE_A or HANDLE_B give the same state in either order, but for the
value the later one returned; so do an EDGE that completes no frame and a POLL. -/
def Obligations.AgentsMeetOnlyInTheMailbox : Prop :=
  ∀ (s : State) (pol : Polarity) (t : Ticks) (i : Instr),
    ((∃ r, i = .readRow r) ∨ (∃ st a, i = .handleA st a) ∨ (∃ g, i = .handleB g) ∨
      (i = .poll ∧ ∀ m, s.dec.phase = receiving m → s.dec.bitcnt ≠ frameLen m)) →
    ∃ u v, execAll [.edge pol t, i] s = .next u ∧ execAll [i, .edge pol t] s = .next v ∧
      u.dec = v.dec ∧ u.mbx = v.mbx ∧ u.ses = v.ses ∧ u.M = v.M ∧ u.refused = v.refused ∧ u.cfg = v.cfg ∧ u.pending = v.pending
end

