-- ==== Sys2Proof/Laws/Matrix.lean ====
section
/-! SUPPORT. What each matrix primitive does to every cell (42_interpreter.md R165, R166), and READ_ROW's value (43_host_ops.md R202). -/

namespace Sys2Proof.Machine

/-- A row write changes exactly that row. -/
theorem cell_writeRow (M : Matrix) (r r' : Fin 19) (v : Row) (c : Fin 16) :
    cell (writeRow M r v) r' c = if r' = r then v.getLsbD c else cell M r' c := by
  unfold cell writeRow
  by_cases h : r' = r
  · subst h; simp
  · have : r.val ≠ r'.val := fun e => h (Fin.ext e.symm)
    simp [h, this]

/-- A cell write changes exactly that cell. -/
theorem cell_writeCell (M : Matrix) (r r' : Fin 19) (c c' : Fin 16) (b : Bool) :
    cell (writeCell M r c b) r' c' = if r' = r ∧ c' = c then b else cell M r' c' := by
  unfold writeCell
  rw [cell_writeRow]
  by_cases hr : r' = r
  · subst hr
    have hc : c'.val < 16 := c'.isLt
    cases b <;> by_cases h : c' = c <;> simp_all [cell, Fin.ext_iff, eq_comm]
  · simp [hr]

theorem asciiRow_val (c : Byte) : (asciiRow c).val = (c.extractLsb' 4 4).toNat := rfl

theorem asciiCol_val (c : Byte) : (asciiCol c).val = (c.extractLsb' 0 4).toNat := rfl

/-- A code's cell determines the code (10_state.md R34). -/
theorem asciiCell_injective {c c' : Byte} (hr : asciiRow c = asciiRow c') (hc : asciiCol c = asciiCol c') : c = c' := by
  have h1 : c.extractLsb' 4 4 = c'.extractLsb' 4 4 :=
    BitVec.eq_of_toNat_eq (by rw [← asciiRow_val, ← asciiRow_val, hr])
  have h2 : c.extractLsb' 0 4 = c'.extractLsb' 0 4 :=
    BitVec.eq_of_toNat_eq (by rw [← asciiCol_val, ← asciiCol_val, hc])
  have join : ∀ x : Byte, x = x.extractLsb' 4 4 ++ x.extractLsb' 0 4 := by decide
  rw [join c, join c', h1, h2]

/-- The cells of the ASCII region are in rows 0..15 (R34). -/
theorem asciiRow_lt (c : Byte) : (asciiRow c).val < 16 := (c.extractLsb' 4 4).isLt

/-- Every cell of rows 0..15 is some code's cell (R34). -/
theorem exists_asciiCell (r : Fin 19) (c : Fin 16) (h : r.val < 16) : ∃ code, asciiRow code = r ∧ asciiCol code = c := by
  refine ⟨BitVec.ofNat 8 (16 * r.val + c.val), ?_, ?_⟩
  · apply Fin.ext
    simp only [asciiRow_val, BitVec.extractLsb'_toNat, BitVec.toNat_ofNat, Nat.shiftRight_eq_div_pow]
    omega
  · apply Fin.ext
    simp only [asciiCol_val, BitVec.extractLsb'_toNat, BitVec.toNat_ofNat, Nat.shiftRight_eq_div_pow]
    omega

/-- Row 16 is outside the ASCII region. -/
theorem asciiRow_ne_modRow (c : Byte) : asciiRow c ≠ modRow := by
  have := asciiRow_lt c
  intro h
  rw [h] at this
  exact absurd this (by decide)

@[simp] theorem extCol_val (e : Fin 10) : (extCol e).val = 5 + e.val := rfl

/-- Distinct extended bits have distinct columns (R33). -/
theorem extCol_injective {e e' : Fin 10} (h : extCol e = extCol e') : e = e' := by
  have := congrArg Fin.val h
  simp only [extCol_val] at this
  omega

theorem extMask_bit : ∀ c : Fin 16, extMask[c.val] = decide (5 ≤ c.val ∧ c.val ≤ 14) := by decide

theorem modMask_bit : ∀ c : Fin 16, modMask[c.val] = decide (c.val < 5) := by decide

theorem cell_setAscii (M : Matrix) (code : Byte) (r : Fin 19) (c : Fin 16) :
    cell (setAscii code M) r c = if r = asciiRow code ∧ c = asciiCol code then true else cell M r c :=
  cell_writeCell ..

theorem cell_clearAscii (M : Matrix) (code : Byte) (r : Fin 19) (c : Fin 16) :
    cell (clearAscii code M) r c = if r = asciiRow code ∧ c = asciiCol code then false else cell M r c :=
  cell_writeCell ..

theorem cell_setExt (M : Matrix) (e : Fin 10) (r : Fin 19) (c : Fin 16) :
    cell (setExt e M) r c = if r = modRow ∧ c = extCol e then true else cell M r c :=
  cell_writeCell ..

/-- The ten extended cells are cleared, and no other (R166). -/
theorem cell_clearExtRegion (M : Matrix) (r : Fin 19) (c : Fin 16) :
    cell (clearExtRegion M) r c = if r = modRow ∧ 5 ≤ c.val ∧ c.val ≤ 14 then false else cell M r c := by
  unfold clearExtRegion
  rw [cell_writeRow]
  by_cases hr : r = modRow
  · subst hr
    have := extMask_bit c
    by_cases h : 5 ≤ c.val ∧ c.val ≤ 14
    · simp_all
    · simp only [h, decide_false] at this
      simp [cell, h, this]
  · simp [hr]

/-- The five modifier cells take the negated status bits, and no other cell changes (R165). -/
theorem cell_setMods (M : Matrix) (st : Byte) (r : Fin 19) (c : Fin 16) :
    cell (setMods st M) r c = if r = modRow ∧ c.val < 5 then !st.getLsbD c else cell M r c := by
  unfold setMods
  rw [cell_writeRow]
  by_cases hr : r = modRow
  · subst hr
    have := modMask_bit c
    by_cases h : c.val < 5
    · have h8 : c.val < 8 := by omega
      simp_all
    · simp_all [cell]
  · simp [hr]

/-- Matrices with equal cells are equal. -/
theorem matrix_ext {M N : Matrix} (h : ∀ r c, cell M r c = cell N r c) : M = N := by
  apply Vector.ext
  intro i hi
  apply BitVec.eq_of_getLsbD_eq
  intro j hj
  exact h ⟨i, hi⟩ ⟨j, hj⟩

@[simp] theorem cell_reset (r : Fin 19) (c : Fin 16) : cell Matrix.reset r c = false := by
  simp [cell, Matrix.reset]

/-- READ_ROW of a row of the matrix reads its cells (R202). -/
theorem readRowValue_cell (M : Matrix) (r : Fin 19) (c : Fin 16) :
    (readRowValue M (BitVec.ofNat 5 r)).getLsbD c = cell M r c := by
  have e : r.val % 32 = r.val := by omega
  simp [readRowValue, cell, e]

/-- READ_ROW of an index outside the matrix is 0 (R202). -/
theorem readRowValue_outside (M : Matrix) (i : BitVec 5) (h : 19 ≤ i.toNat) : readRowValue M i = 0 := by
  simp [readRowValue, Nat.not_lt.mpr h]

end Sys2Proof.Machine
end

