-- ==== Sys2Proof/Laws/Mailbox.lean ====
section
/-! SUPPORT. The mailbox primitives (41_mailbox.md R140, R141). -/

namespace Sys2Proof.Machine

@[simp] theorem publish_ready (p : Packet) (m : Mailbox) : (publish p m).ready = true := rfl
@[simp] theorem publish_slot (p : Packet) (m : Mailbox) : (publish p m).slot = p := rfl
@[simp] theorem publishIfAny_none (m : Mailbox) : publishIfAny none m = m := rfl
@[simp] theorem publishIfAny_some (p : Packet) (m : Mailbox) : publishIfAny (some p) m = publish p m := rfl

/-- `take` never changes the slot and always leaves the mailbox empty. -/
@[simp] theorem take_slot (m : Mailbox) : (take m).2.slot = m.slot := by unfold take; split <;> rfl

@[simp] theorem take_ready (m : Mailbox) : (take m).2.ready = false := by
  cases h : m.ready <;> simp [take, h]

theorem take_of_ready {m : Mailbox} (h : m.ready = true) : take m = (some m.slot, { m with ready := false }) := by
  simp [take, h]

theorem take_of_empty {m : Mailbox} (h : m.ready = false) : take m = (none, m) := by simp [take, h]

end Sys2Proof.Machine
end

