-- ==== Sys2Proof/Laws/State.lean ====
section
/-! SUPPORT. One lemma per field per update of State, each true by rfl, so that no proof unfolds a record update. -/

namespace Sys2Proof.Machine

@[simp] theorem State.setDec_dec (s : State) (d : Decoder) : (s.setDec d).dec = d := rfl
@[simp] theorem State.setDec_mbx (s : State) (d : Decoder) : (s.setDec d).mbx = s.mbx := rfl
@[simp] theorem State.setDec_ses (s : State) (d : Decoder) : (s.setDec d).ses = s.ses := rfl
@[simp] theorem State.setDec_M (s : State) (d : Decoder) : (s.setDec d).M = s.M := rfl
@[simp] theorem State.setDec_refused (s : State) (d : Decoder) : (s.setDec d).refused = s.refused := rfl
@[simp] theorem State.setDec_cfg (s : State) (d : Decoder) : (s.setDec d).cfg = s.cfg := rfl
@[simp] theorem State.setDec_pending (s : State) (d : Decoder) : (s.setDec d).pending = s.pending := rfl
@[simp] theorem State.setDec_output (s : State) (d : Decoder) : (s.setDec d).output = s.output := rfl

@[simp] theorem State.setMbx_dec (s : State) (m : Mailbox) : (s.setMbx m).dec = s.dec := rfl
@[simp] theorem State.setMbx_mbx (s : State) (m : Mailbox) : (s.setMbx m).mbx = m := rfl
@[simp] theorem State.setMbx_ses (s : State) (m : Mailbox) : (s.setMbx m).ses = s.ses := rfl
@[simp] theorem State.setMbx_M (s : State) (m : Mailbox) : (s.setMbx m).M = s.M := rfl
@[simp] theorem State.setMbx_refused (s : State) (m : Mailbox) : (s.setMbx m).refused = s.refused := rfl
@[simp] theorem State.setMbx_cfg (s : State) (m : Mailbox) : (s.setMbx m).cfg = s.cfg := rfl
@[simp] theorem State.setMbx_pending (s : State) (m : Mailbox) : (s.setMbx m).pending = s.pending := rfl
@[simp] theorem State.setMbx_output (s : State) (m : Mailbox) : (s.setMbx m).output = s.output := rfl

@[simp] theorem State.setInterp_dec (s : State) (k : Interp) : (s.setInterp k).dec = s.dec := rfl
@[simp] theorem State.setInterp_mbx (s : State) (k : Interp) : (s.setInterp k).mbx = s.mbx := rfl
@[simp] theorem State.setInterp_ses (s : State) (k : Interp) : (s.setInterp k).ses = k.ses := rfl
@[simp] theorem State.setInterp_M (s : State) (k : Interp) : (s.setInterp k).M = k.M := rfl
@[simp] theorem State.setInterp_refused (s : State) (k : Interp) : (s.setInterp k).refused = s.refused := rfl
@[simp] theorem State.setInterp_cfg (s : State) (k : Interp) : (s.setInterp k).cfg = s.cfg := rfl
@[simp] theorem State.setInterp_pending (s : State) (k : Interp) : (s.setInterp k).pending = s.pending := rfl
@[simp] theorem State.setInterp_output (s : State) (k : Interp) : (s.setInterp k).output = s.output := rfl

@[simp] theorem State.setOutput_dec (s : State) (o : Output) : (s.setOutput o).dec = s.dec := rfl
@[simp] theorem State.setOutput_mbx (s : State) (o : Output) : (s.setOutput o).mbx = s.mbx := rfl
@[simp] theorem State.setOutput_ses (s : State) (o : Output) : (s.setOutput o).ses = s.ses := rfl
@[simp] theorem State.setOutput_M (s : State) (o : Output) : (s.setOutput o).M = s.M := rfl
@[simp] theorem State.setOutput_refused (s : State) (o : Output) : (s.setOutput o).refused = s.refused := rfl
@[simp] theorem State.setOutput_cfg (s : State) (o : Output) : (s.setOutput o).cfg = s.cfg := rfl
@[simp] theorem State.setOutput_pending (s : State) (o : Output) : (s.setOutput o).pending = s.pending := rfl
@[simp] theorem State.setOutput_output (s : State) (o : Output) : (s.setOutput o).output = o := rfl

@[simp] theorem State.setPending_dec (s : State) (ps : List Offer) : (s.setPending ps).dec = s.dec := rfl
@[simp] theorem State.setPending_mbx (s : State) (ps : List Offer) : (s.setPending ps).mbx = s.mbx := rfl
@[simp] theorem State.setPending_ses (s : State) (ps : List Offer) : (s.setPending ps).ses = s.ses := rfl
@[simp] theorem State.setPending_M (s : State) (ps : List Offer) : (s.setPending ps).M = s.M := rfl
@[simp] theorem State.setPending_refused (s : State) (ps : List Offer) : (s.setPending ps).refused = s.refused := rfl
@[simp] theorem State.setPending_cfg (s : State) (ps : List Offer) : (s.setPending ps).cfg = s.cfg := rfl
@[simp] theorem State.setPending_pending (s : State) (ps : List Offer) : (s.setPending ps).pending = ps := rfl
@[simp] theorem State.setPending_output (s : State) (ps : List Offer) : (s.setPending ps).output = s.output := rfl

@[simp] theorem State.refuse_dec (s : State) : s.refuse.dec = s.dec := rfl
@[simp] theorem State.refuse_mbx (s : State) : s.refuse.mbx = s.mbx := rfl
@[simp] theorem State.refuse_ses (s : State) : s.refuse.ses = s.ses := rfl
@[simp] theorem State.refuse_M (s : State) : s.refuse.M = s.M := rfl
@[simp] theorem State.refuse_refused (s : State) : s.refuse.refused = true := rfl
@[simp] theorem State.refuse_cfg (s : State) : s.refuse.cfg = s.cfg := rfl
@[simp] theorem State.refuse_pending (s : State) : s.refuse.pending = s.pending := rfl
@[simp] theorem State.refuse_output (s : State) : s.refuse.output = .nothing := rfl

@[simp] theorem State.interp_ses (s : State) : s.interp.ses = s.ses := rfl
@[simp] theorem State.interp_M (s : State) : s.interp.M = s.M := rfl
@[simp] theorem State.interp_setInterp (s : State) (k : Interp) : (s.setInterp k).interp = k := rfl
@[simp] theorem State.interp_setMbx (s : State) (m : Mailbox) : (s.setMbx m).interp = s.interp := rfl
@[simp] theorem State.interp_setPending (s : State) (ps : List Offer) : (s.setPending ps).interp = s.interp := rfl

/-- Two states that agree on every field are equal. -/
theorem State.ext_fields {s t : State} (dec : s.dec = t.dec) (mbx : s.mbx = t.mbx) (ses : s.ses = t.ses) (M : s.M = t.M)
    (refused : s.refused = t.refused) (cfg : s.cfg = t.cfg) (pending : s.pending = t.pending) (output : s.output = t.output) :
    s = t := by
  cases s; cases t; simp_all

end Sys2Proof.Machine
end

