-- ==== Sys2Proof/Laws/Interpreter.lean ====
section
/-! SUPPORT. What each step of HANDLE does to the Session State and to every cell of the matrix (42_interpreter.md R150-R166). -/

namespace Sys2Proof.Machine

open Config

@[simp] theorem switchIf_snapshot (b : Bool) (x : Session) : (switchIf b x).snapshot = x.snapshot := by cases b <;> rfl
@[simp] theorem switchIf_lastAscii (b : Bool) (x : Session) : (switchIf b x).lastAscii = x.lastAscii := by cases b <;> rfl
@[simp] theorem switchIf_extActive (b : Bool) (x : Session) : (switchIf b x).extActive = x.extActive := by cases b <;> rfl
@[simp] theorem switchIf_currentMode (b : Bool) (x : Session) :
    (switchIf b x).currentMode = if b then .a else x.currentMode := by cases b <;> rfl

@[simp] theorem registerAscii_ses (c : Byte) (k : Interp) : (registerAscii c k).ses = { k.ses with lastAscii := c } := rfl
@[simp] theorem registerAscii_M (c : Byte) (k : Interp) : (registerAscii c k).M = setAscii c k.M := rfl
@[simp] theorem registerExt_ses (e : Fin 10) (k : Interp) : (registerExt e k).ses = { k.ses with extActive := true } := rfl
@[simp] theorem registerExt_M (e : Fin 10) (k : Interp) : (registerExt e k).M = setExt e k.M := rfl
@[simp] theorem registerMods_ses (st : Byte) (k : Interp) : (registerMods st k).ses = k.ses := rfl
@[simp] theorem registerMods_M (st : Byte) (k : Interp) : (registerMods st k).M = setMods st k.M := rfl

/-- A repeat packet clears nothing (R153). -/
theorem clearPrevious_of_repeat {st : Byte} (h : isRepeat st = true) (k : Interp) : clearPrevious st k = k := by
  simp [clearPrevious, h]

@[simp] theorem clearPrevious_currentMode (st : Byte) (k : Interp) :
    (clearPrevious st k).ses.currentMode = k.ses.currentMode := by unfold clearPrevious; split <;> rfl
@[simp] theorem clearPrevious_snapshot (st : Byte) (k : Interp) :
    (clearPrevious st k).ses.snapshot = k.ses.snapshot := by unfold clearPrevious; split <;> rfl
@[simp] theorem clearPrevious_lastAscii (st : Byte) (k : Interp) :
    (clearPrevious st k).ses.lastAscii = k.ses.lastAscii := by unfold clearPrevious; split <;> rfl

theorem clearPrevious_extActive (st : Byte) (k : Interp) :
    (clearPrevious st k).ses.extActive = (isRepeat st && k.ses.extActive) := by
  unfold clearPrevious; split <;> simp_all

/-- Step 1 clears the extended region or one ASCII cell, for a genuine new key only (R153). -/
theorem cell_clearPrevious (st : Byte) (k : Interp) (r : Fin 19) (c : Fin 16) :
    cell (clearPrevious st k).M r c =
      (cell k.M r c && (isRepeat st ||
        !(if k.ses.extActive then decide (r = modRow ∧ 5 ≤ c.val ∧ c.val ≤ 14)
          else decide (r = asciiRow k.ses.lastAscii ∧ c = asciiCol k.ses.lastAscii)))) := by
  unfold clearPrevious
  by_cases hr : isRepeat st = true
  · simp [hr]
  · by_cases he : k.ses.extActive = true
    · rw [if_neg hr, if_pos he, if_pos he, cell_clearExtRegion]
      by_cases h : r = modRow ∧ 5 ≤ c.val ∧ c.val ≤ 14 <;> simp [h, hr]
    · rw [if_neg hr, if_neg he, if_neg he, cell_clearAscii]
      by_cases h : r = asciiRow k.ses.lastAscii ∧ c = asciiCol k.ses.lastAscii <;> simp [h, hr]

/-- The one inversion lemma of steps 2 to 4: they register one ASCII code, or one extended bit, or nothing, and may set the mode to A
(R154-R164). -/
theorem branch_cases (t : Tables) (st c0 : Byte) (k : Interp) :
    ∃ ses, (ses = k.ses ∨ (ses = { k.ses with currentMode := .a } ∧ ∃ c, detect t st c k.ses = true)) ∧
      ((∃ f, branch t st c0 k = registerAscii f { k with ses := ses }) ∨
       (∃ e, branch t st c0 k = registerExt e { k with ses := ses }) ∨
       branch t st c0 k = { k with ses := ses }) := by
  have sw : ∀ c, switchIf (detect t st c k.ses) k.ses = k.ses ∨
      (switchIf (detect t st c k.ses) k.ses = { k.ses with currentMode := .a } ∧ ∃ c, detect t st c k.ses = true) := by
    intro c
    cases h : detect t st c k.ses
    · exact .inl rfl
    · exact .inr ⟨rfl, c, h⟩
  unfold branch
  split
  · unfold tenKey
    split
    · exact ⟨k.ses, .inl rfl, .inl ⟨_, rfl⟩⟩
    · split
      · unfold numpadEnter
        refine ⟨_, sw c0, ?_⟩
        dsimp only
        split
        · exact .inr (.inr rfl)
        · split
          · exact .inr (.inl ⟨_, rfl⟩)
          · exact .inr (.inr rfl)
      · split
        · exact ⟨k.ses, .inl rfl, .inr (.inl ⟨_, rfl⟩)⟩
        · exact ⟨k.ses, .inl rfl, .inl ⟨_, rfl⟩⟩
  · split
    · exact ⟨k.ses, .inl rfl, .inl ⟨_, rfl⟩⟩
    · unfold general
      refine ⟨_, sw (tentative t st c0 k.ses), ?_⟩
      show (_ ∨ _ ∨ (if _ then _ else registerAscii _ _) = _)
      by_cases h : suppress t (if detect t st (tentative t st c0 k.ses) k.ses then c0 else tentative t st c0 k.ses)
          (switchIf (detect t st (tentative t st c0 k.ses) k.ses) k.ses) = true
      · exact .inr (.inr (if_pos h))
      · exact .inl ⟨_, if_neg h⟩

/-- No step of 2 to 4 clears a cell, and none writes the game-key rows, the modifier cells or the snapshot. -/
theorem branch_snapshot (t : Tables) (st c0 : Byte) (k : Interp) : (branch t st c0 k).ses.snapshot = k.ses.snapshot := by
  obtain ⟨ses, hs, ⟨f, e⟩ | ⟨x, e⟩ | e⟩ := branch_cases t st c0 k <;>
    rcases hs with rfl | ⟨rfl, -⟩ <;> rw [e] <;> rfl

/-- Mode B's effect (R151). -/
theorem handle_packetB (t : Tables) (g : GameKeys) (k : Interp) : handle t (packetB g) k = modeB g k := rfl

/-- Mode A's effect (R154). -/
theorem handle_packetA (t : Tables) (st a : Byte) (k : Interp) : handle t (packetA st a) k = modeA t st a k := rfl

/-- Every cell after a Mode A packet: the modifier cells follow the status byte; every other cell is as the branch left it (R154, R165). -/
theorem cell_modeA (t : Tables) (st c0 : Byte) (k : Interp) (r : Fin 19) (c : Fin 16) :
    cell (modeA t st c0 k).M r c =
      if r = modRow ∧ c.val < 5 then !st.getLsbD c else cell (branch t st c0 (clearPrevious st k)).M r c :=
  cell_setMods ..

@[simp] theorem modeA_ses (t : Tables) (st c0 : Byte) (k : Interp) :
    (modeA t st c0 k).ses = (branch t st c0 (clearPrevious st k)).ses := rfl

/-- HANDLE on a packet writes what the interpreter owns and the returned value, nothing else (R150, R203). -/
theorem handleAndReport_eq (p : Packet) (s : State) :
    handleAndReport p s = { s with ses := (handle s.cfg.tables p s.interp).ses
                                   M := (handle s.cfg.tables p s.interp).M
                                   output := .changed (decide ((handle s.cfg.tables p s.interp).M ≠ s.M)) } := rfl

/-- POLL with a packet waiting (43_host_ops.md R201). -/
theorem execPoll_ready {s : State} (h : s.mbx.ready = true) :
    execPoll s = .next (handleAndReport s.mbx.slot (s.setMbx { s.mbx with ready := false })) := by
  simp [execPoll, take_of_ready h, pollWith]

/-- POLL with an empty mailbox (R201). -/
theorem execPoll_empty {s : State} (h : s.mbx.ready = false) : execPoll s = .next (s.setOutput (.changed false)) := by
  rw [execPoll, take_of_empty h]
  rfl

end Sys2Proof.Machine
end

