-- ==== Sys2Proof/Laws/SignalDecoder.lean ====
section
/-! SUPPORT. What an edge can do to the decoder, once (40_decoder.md R100-R107), and that its invariant is kept by each transition
(10_state.md R26). -/

namespace Sys2Proof.Machine

open Config

@[simp] theorem opposite_ne (pol : Polarity) : opposite pol ≠ pol := by cases pol <;> decide

@[simp] theorem modeOf_receiving (m : Mode) : modeOf (receiving m) = some m := by cases m <;> rfl

@[simp] theorem receiving_ne_idle (m : Mode) : receiving m ≠ .idle := by cases m <;> decide

theorem modeOf_eq_none {p : Phase} : modeOf p = none ↔ p = .idle := by cases p <;> simp [modeOf]

theorem modeOf_eq_some {p : Phase} {m : Mode} : modeOf p = some m ↔ p = receiving m := by
  cases p <;> cases m <;> simp [modeOf, receiving]

/-- An edge of the unarmed polarity is ignored (R100). -/
theorem onEdge_unarmed (w : Windows) {pol : Polarity} (t : Ticks) {d : Decoder} (h : pol ≠ d.armed) :
    onEdge w pol t d = (d, none) := by simp [onEdge, h]

/-- IdleFall (R101). -/
theorem onEdge_idleFall (w : Windows) (t : Ticks) {d : Decoder} (ha : d.armed = .falling) (hp : d.phase = .idle) :
    onEdge w .falling t d = ({ d with armed := .rising }, none) := by simp [onEdge, ha, hp, modeOf, opposite]

/-- HeaderLow (R102). -/
theorem onEdge_headerLow (w : Windows) (t : Ticks) {d : Decoder} (ha : d.armed = .rising) (hp : d.phase = .idle) :
    onEdge w .rising t d = (headerLow w t { d with armed := .falling }, none) := by
  simp [onEdge, ha, hp, modeOf, opposite]

/-- HighSample (R103). -/
theorem onEdge_highSample (w : Windows) (t : Ticks) {d : Decoder} {m : Mode} (ha : d.armed = .falling)
    (hp : d.phase = receiving m) :
    onEdge w .falling t d = (highSample w m t { d with armed := .rising }, none) := by
  simp [onEdge, ha, hp, opposite]

/-- LowSample (R105). -/
theorem onEdge_lowSample (w : Windows) (t : Ticks) {d : Decoder} {m : Mode} (ha : d.armed = .rising)
    (hp : d.phase = receiving m) :
    onEdge w .rising t d = lowSample w m t { d with armed := .falling } := by
  simp [onEdge, ha, hp, opposite]

/-- The one inversion lemma of EDGE: exactly one of five things happens (R100). -/
theorem onEdge_cases (w : Windows) (pol : Polarity) (t : Ticks) (d : Decoder) :
    (pol ≠ d.armed ∧ onEdge w pol t d = (d, none)) ∨
    (pol = .falling ∧ d.armed = .falling ∧ d.phase = .idle ∧ onEdge w pol t d = ({ d with armed := .rising }, none)) ∨
    (pol = .rising ∧ d.armed = .rising ∧ d.phase = .idle ∧
      onEdge w pol t d = (headerLow w t { d with armed := .falling }, none)) ∨
    (∃ m, pol = .falling ∧ d.armed = .falling ∧ d.phase = receiving m ∧
      onEdge w pol t d = (highSample w m t { d with armed := .rising }, none)) ∨
    (∃ m, pol = .rising ∧ d.armed = .rising ∧ d.phase = receiving m ∧
      onEdge w pol t d = lowSample w m t { d with armed := .falling }) := by
  by_cases h : pol = d.armed
  · cases hm : modeOf d.phase with
    | none =>
      have hp := modeOf_eq_none.mp hm
      cases pol
      · exact .inr (.inl ⟨rfl, h.symm, hp, onEdge_idleFall w t h.symm hp⟩)
      · exact .inr (.inr (.inl ⟨rfl, h.symm, hp, onEdge_headerLow w t h.symm hp⟩))
    | some m =>
      have hp := modeOf_eq_some.mp hm
      cases pol
      · exact .inr (.inr (.inr (.inl ⟨m, rfl, h.symm, hp, onEdge_highSample w t h.symm hp⟩)))
      · exact .inr (.inr (.inr (.inr ⟨m, rfl, h.symm, hp, onEdge_lowSample w t h.symm hp⟩)))
  · exact .inl ⟨h, onEdge_unarmed w t h⟩

/-- A packet comes only from a valid low time at a full frame of its mode, and carries the accumulator (R105, R106). -/
theorem onEdge_packet {w : Windows} {pol : Polarity} {t : Ticks} {d : Decoder} {p : Packet}
    (h : (onEdge w pol t d).2 = some p) :
    ∃ m, pol = .rising ∧ d.armed = .rising ∧ d.phase = receiving m ∧ inWindow t w.bitLow = true ∧
      d.bitcnt = frameLen m ∧ p = assemble m d.acc ∧ (onEdge w pol t d).1 = abort { d with armed := .falling } := by
  rcases onEdge_cases w pol t d with ⟨-, e⟩ | ⟨-, -, -, e⟩ | ⟨-, -, -, e⟩ | ⟨m, -, -, -, e⟩ | ⟨m, hp, ha, hm, e⟩
  iterate 4 (rw [e] at h; cases h)
  rw [e] at h
  refine ⟨m, hp, ha, hm, ?_⟩
  unfold lowSample at h e
  split at h
  · split at h
    · cases h; simp_all
    · cases h
  · cases h

/-- The packet of a completed frame is a well-formed packet (10_state.md R27). -/
theorem assemble_wellFormed (m : Mode) (x : BitVec 24) : (assemble m x).wellFormed := by
  cases m <;> simp [assemble, packetA, packetB, Packet.wellFormed]

/-- EDGE writes the decoder and the mailbox and nothing else (R109). -/
theorem execEdge_eq (pol : Polarity) (t : Ticks) (s : State) :
    execEdge pol t s = .next { s with dec := (onEdge s.cfg.windows pol t s.dec).1
                                      mbx := publishIfAny (onEdge s.cfg.windows pol t s.dec).2 s.mbx
                                      output := .nothing } := rfl

end Sys2Proof.Machine
end

