-- ==== Sys2Proof/Laws/Step.lean ====
section
/-! SUPPORT. What a step can do, once (43_host_ops.md R205, 60_exceptions.md R220, R223, R232). -/

namespace Sys2Proof.Machine

theorem next_inj {s t : State} (h : (Host.Outcome.next s : Host.Outcome State Fault Refusal) = .next t) : s = t := by
  injection h

/-- Nothing offered: the block is idle (R232). -/
theorem step_idle {s : State} (h : s.pending = []) : step s = .next s := by simp [step, h]

/-- The next offered word spells an operation of its agent (R205). -/
theorem step_exec {s : State} {o : Offer} {rest : List Offer} {i : Instr} (h : s.pending = o :: rest)
    (hd : decodeOffer o = .ok i) : step s = exec i (s.setPending rest) := by simp [step, h, hd]

/-- The next offered word is refused (R223). -/
theorem step_refuse {s : State} {o : Offer} {rest : List Offer} {e : IllFormed} (h : s.pending = o :: rest)
    (hd : decodeOffer o = .error e) : step s = .next (s.setPending rest).refuse := by simp [step, h, hd]

/-- The one inversion lemma of a step. -/
theorem step_cases (s : State) :
    (s.pending = [] ∧ step s = .next s) ∨
    (∃ o rest i, s.pending = o :: rest ∧ decodeOffer o = .ok i ∧ step s = exec i (s.setPending rest)) ∨
    (∃ o rest e, s.pending = o :: rest ∧ decodeOffer o = .error e ∧ step s = .next (s.setPending rest).refuse) := by
  cases hp : s.pending with
  | nil => exact .inl ⟨rfl, step_idle hp⟩
  | cons o rest =>
    cases hd : decodeOffer o with
    | ok i => exact .inr (.inl ⟨o, rest, i, rfl, hd, step_exec hp hd⟩)
    | error e => exact .inr (.inr ⟨o, rest, e, rfl, hd, step_refuse hp hd⟩)

/-- The operation a word decodes to is its agent's (R205). -/
theorem decodeOffer_ok {o : Offer} {i : Instr} : decodeOffer o = .ok i ↔ decode o.word = .ok i ∧ i.agent = o.agent := by
  unfold decodeOffer
  cases h : decode o.word with
  | error e => simp
  | ok j =>
    by_cases hj : j.agent = o.agent
    · simp only [hj, if_true, Except.ok.injEq]
      exact ⟨fun e => ⟨e, e ▸ hj⟩, fun e => e.1⟩
    · simp only [hj, if_false, reduceCtorEq, Except.ok.injEq, false_iff, not_and]
      rintro rfl
      exact hj

end Sys2Proof.Machine
end

