-- ==== Sys2Proof/Laws/Run.lean ====
section
/-! SUPPORT. Runs of several operations and of several steps, one at a time, and the interpreter's two tests in the words of
Sys2Proof/Safety.lean. -/

namespace Sys2Proof.Machine

@[simp] theorem run_zero (s : State) : run 0 s = .next s := rfl

/-- Of any machine: k + 1 steps are one step and then k. -/
theorem coreRun_succ (m : Host.Core) {s t : m.State} (h : m.step s = .next t) (k : Nat) : m.run (k + 1) s = m.run k t := by
  simp only [Host.Core.run, h]

/-- k + 1 steps are one step and then k. -/
theorem run_succ {s t : State} (h : step s = .next t) (k : Nat) : run (k + 1) s = run k t :=
  coreRun_succ Sys2Proof.core h k

@[simp] theorem execAll_nil (s : State) : execAll [] s = .next s := rfl

theorem execAll_cons {i : Instr} {s t : State} (h : exec i s = .next t) (ops : List Instr) :
    execAll (i :: ops) s = execAll ops t := by
  simp [execAll, h]

/-- Operations in sequence compose. -/
theorem execAll_append {a : List Instr} {s t : State} (h : execAll a s = .next t) (b : List Instr) :
    execAll (a ++ b) s = execAll b t := by
  induction a generalizing s with
  | nil => cases h; rfl
  | cons i a ih =>
    simp only [List.cons_append, execAll] at h ⊢
    split at h
    · exact ih h
    · cases h
    · cases h

/-- R161: `Detect` is the acceptance of the switch. -/
theorem detect_iff (t : Config.Tables) (st c : Byte) (ses : Session) :
    detect t st c ses = true ↔ SwitchAccepted t st c ses := by
  unfold detect SwitchAccepted
  cases gameBit t c with
  | none => simp
  | some k => by_cases h : needsCtrl c = true <;> simp_all [needsCtrl, or_assoc]

/-- R163: in a mode nothing has just switched, `Suppress` is the key held in Mode B. -/
theorem suppress_iff (t : Config.Tables) (c : Byte) (ses : Session) :
    suppress t c ses = true ↔ HeldInModeB t c ses := by
  unfold suppress HeldInModeB
  cases gameBit t c <;> simp

end Sys2Proof.Machine
end

