-- ==== Sys2Proof/Laws/Branch.lean ====
section
/-! SUPPORT. What steps 2 to 4 of a Mode A packet do to the mode and to each cell, once, in the words of Sys2Proof/Safety.lean. -/

namespace Sys2Proof.Machine

open Config

@[simp] theorem suppress_switchIf_true (t : Tables) (c : Byte) (ses : Session) : suppress t c (switchIf true ses) = false := by
  unfold suppress switchIf
  cases gameBit t c <;> simp

@[simp] theorem switchIf_false (ses : Session) : switchIf false ses = ses := rfl

/-- The step-3 test of `branch` (R154). -/
theorem ctrlCollision_test {st c0 : Byte} (h : tenkey st = false) :
    (ctrl st && !shift st && isCtrlCollision c0) = true ↔ TakesCtrlCollision st c0 := by
  simp [TakesCtrlCollision, isCtrlCollision, h, and_assoc]

theorem takesGeneralPath_iff {st c0 : Byte} (h : tenkey st = false) : TakesGeneralPath st c0 ↔ ¬ TakesCtrlCollision st c0 := by
  simp [TakesGeneralPath, TakesCtrlCollision, h]

theorem cell_setAscii_iff (M : Matrix) (f : Byte) (r : Fin 19) (c : Fin 16) :
    cell (setAscii f M) r c = true ↔ isCellOf f r c ∨ cell M r c = true := by
  rw [cell_setAscii]
  unfold isCellOf
  split <;> simp_all

theorem cell_setExt_iff (M : Matrix) (e : Fin 10) (r : Fin 19) (c : Fin 16) :
    cell (setExt e M) r c = true ↔ isExtCell e r c ∨ cell M r c = true := by
  rw [cell_setExt]
  unfold isExtCell
  split <;> simp_all

/-- A code is kept after detection exactly when the switch was accepted or its key is not held in Mode B (R157, R163). -/
theorem suppress_after_detect (t : Tables) (st c : Byte) (ses : Session) :
    suppress t c (switchIf (detect t st c ses) ses) = false ↔ SwitchAccepted t st c ses ∨ ¬ HeldInModeB t c ses := by
  rw [← detect_iff, ← suppress_iff]
  cases detect t st c ses <;> simp

/-- Numpad-enter (R157): its cell, unless suppressed. -/
theorem cell_numpadEnter (t : Tables) (st c0 : Byte) (k : Interp) (r : Fin 19) (c : Fin 16) :
    cell (numpadEnter t st c0 k).M r c = true ↔
      (∃ e, extMap t c0 = some e ∧ (SwitchAccepted t st c0 k.ses ∨ ¬ HeldInModeB t c0 k.ses) ∧ isExtCell e r c) ∨
        cell k.M r c = true := by
  rw [← suppress_after_detect]
  unfold numpadEnter
  cases hs : suppress t c0 (switchIf (detect t st c0 k.ses) k.ses)
  · cases he : extMap t c0 with
    | none => simp [hs]
    | some e => simp [hs, cell_setExt_iff]
  · simp [hs]

/-- Numpad-enter leaves the mode that detection gives, whether or not the key is suppressed. -/
theorem numpadEnter_currentMode (t : Tables) (st c0 : Byte) (k : Interp) :
    (numpadEnter t st c0 k).ses.currentMode = if detect t st c0 k.ses then .a else k.ses.currentMode := by
  rw [← switchIf_currentMode]
  unfold numpadEnter
  dsimp only
  split
  · rfl
  · split <;> rfl

/-- The general path after an accepted switch (R161, R162). -/
theorem general_accepted {t : Tables} {st c0 : Byte} {k : Interp} (h : detect t st (tentative t st c0 k.ses) k.ses = true) :
    general t st c0 k = registerAscii c0 { k with ses := switchIf true k.ses } := by
  simp only [general, h, if_true, suppress_switchIf_true, Bool.false_eq_true, if_false]

/-- The general path without a switch: suppression, or the tentative code (R163, R164). -/
theorem general_rejected {t : Tables} {st c0 : Byte} {k : Interp} (h : detect t st (tentative t st c0 k.ses) k.ses = false) :
    general t st c0 k =
      if suppress t (tentative t st c0 k.ses) k.ses then k else registerAscii (tentative t st c0 k.ses) k := by
  simp only [general, h, switchIf_false, Bool.false_eq_true, if_false]

theorem registers_collision {t : Tables} {st c0 : Byte} {ses : Session} {r : Fin 19} {c : Fin 16} (h : TakesCtrlCollision st c0) :
    Registers t st c0 ses r c ↔ isCellOf (if c0 = 0x03 then 0x43 else 0x52) r c := by
  have hg := fun p => (takesGeneralPath_iff h.1).mp p h
  have ht := h.1
  constructor
  · intro x
    cases x with
    | ctrlC _ hk x => subst hk; exact x
    | ctrlR _ hk x => subst hk; exact x
    | numpadEnter _ path => exact absurd path.1 (by simp [ht])
    | original path | general path => exact absurd path hg
    | tenkeyImage _ ten | special _ ten | tenkeyOther ten => simp [ht] at ten
  · intro x
    rcases h.2.2.2 with rfl | rfl
    · exact .ctrlC h rfl x
    · exact .ctrlR h rfl x

theorem registers_general {t : Tables} {st c0 : Byte} {ses : Session} {r : Fin 19} {c : Fin 16} (h : TakesGeneralPath st c0) :
    Registers t st c0 ses r c ↔
      (SwitchAccepted t st (tentative t st c0 ses) ses ∧ isCellOf c0 r c) ∨
        (¬ SwitchAccepted t st (tentative t st c0 ses) ses ∧ ¬ HeldInModeB t (tentative t st c0 ses) ses ∧
          isCellOf (tentative t st c0 ses) r c) := by
  have ht := h.1
  constructor
  · intro x
    cases x with
    | original _ a x => exact .inl ⟨a, x⟩
    | general _ a k x => exact .inr ⟨a, k, x⟩
    | ctrlC path | ctrlR path => exact absurd path ((takesGeneralPath_iff ht).mp h)
    | numpadEnter _ path => exact absurd path.1 (by simp [ht])
    | tenkeyImage _ ten | special _ ten | tenkeyOther ten => simp [ht] at ten
  · rintro (⟨a, x⟩ | ⟨a, k, x⟩)
    · exact .original h a x
    · exact .general h a k x

theorem registers_tenkey {t : Tables} {st c0 : Byte} {ses : Session} {r : Fin 19} {c : Fin 16} (h : tenkey st = true) :
    Registers t st c0 ses r c ↔ match tenkeyMap t c0 with
      | some code => isCellOf code r c
      | none =>
        if c0 = t.numpadEnter then
          ∃ e, extMap t c0 = some e ∧ (SwitchAccepted t st c0 ses ∨ ¬ HeldInModeB t c0 ses) ∧ isExtCell e r c
        else match extMap t c0 with
          | some e => isExtCell e r c
          | none => isCellOf c0 r c := by
  constructor
  · intro x
    cases x with
    | tenkeyImage code _ image x => rw [image]; exact x
    | special e _ image other bit x => simpa [image, other, bit] using x
    | numpadEnter e path bit kept x =>
      simp only [path.2.1, if_pos path.2.2]
      exact ⟨e, bit, kept, x⟩
    | tenkeyOther _ image other bit x => simpa [image, other, bit] using x
    | ctrlC path | ctrlR path | original path | general path => exact absurd path.1 (by simp [h])
  · intro x
    split at x
    · exact .tenkeyImage _ h ‹_› x
    · split at x
      · obtain ⟨e, bit, kept, x⟩ := x
        exact .numpadEnter e ⟨h, ‹_›, ‹_›⟩ bit kept x
      · split at x
        · exact .special _ h ‹_› ‹_› ‹_› x
        · exact .tenkeyOther h ‹_› ‹_› ‹_› x

/-- Steps 2 to 4 set exactly the cell that the packet registers, and clear none. -/
theorem cell_branch (t : Tables) (st c0 : Byte) (k : Interp) (r : Fin 19) (c : Fin 16) :
    cell (branch t st c0 k).M r c = true ↔ Registers t st c0 k.ses r c ∨ cell k.M r c = true := by
  unfold branch
  cases ht : tenkey st
  · by_cases hc : TakesCtrlCollision st c0
    · simp only [Bool.false_eq_true, if_false, (ctrlCollision_test ht).mpr hc, if_true, ctrlCollision, registerAscii_M,
        cell_setAscii_iff, registers_collision hc]
    · rw [registers_general ((takesGeneralPath_iff ht).mpr hc), ← detect_iff, ← suppress_iff]
      rw [← ctrlCollision_test ht] at hc
      simp only [Bool.false_eq_true, if_false, hc]
      cases hd : detect t st (tentative t st c0 k.ses) k.ses
      · rw [general_rejected hd]
        cases hs : suppress t (tentative t st c0 k.ses) k.ses <;> simp [cell_setAscii_iff]
      · simp [general_accepted hd, cell_setAscii_iff]
  · rw [registers_tenkey ht, if_pos rfl]
    unfold tenKey
    cases tenkeyMap t c0 with
    | some code => simp [cell_setAscii_iff]
    | none =>
      dsimp only
      split
      · exact cell_numpadEnter t st c0 k r c
      · cases extMap t c0 <;> simp [cell_setAscii_iff, cell_setExt_iff]

theorem switchesMode_iff {t : Tables} {st c0 : Byte} {ses : Session} : SwitchesMode t st c0 ses ↔
    (TakesGeneralPath st c0 ∧ SwitchAccepted t st (tentative t st c0 ses) ses) ∨
      (TakesNumpadEnter t st c0 ∧ SwitchAccepted t st c0 ses) := by
  constructor
  · rintro (⟨p, a⟩ | ⟨p, a⟩)
    · exact .inl ⟨p, a⟩
    · exact .inr ⟨p, a⟩
  · rintro (⟨p, a⟩ | ⟨p, a⟩)
    · exact .general p a
    · exact .numpadEnter p a

/-- Steps 2 to 4 set the mode to A where the packet switches it, and leave it otherwise. -/
theorem branch_currentMode (t : Tables) (st c0 : Byte) (k : Interp) :
    (SwitchesMode t st c0 k.ses → (branch t st c0 k).ses.currentMode = .a) ∧
    (¬ SwitchesMode t st c0 k.ses → (branch t st c0 k).ses.currentMode = k.ses.currentMode) := by
  unfold branch
  cases ht : tenkey st
  · have none : ¬ TakesNumpadEnter t st c0 := fun h => absurd h.1 (by simp [ht])
    by_cases hc : TakesCtrlCollision st c0
    · have hg : ¬ TakesGeneralPath st c0 := fun h => (takesGeneralPath_iff ht).mp h hc
      have no : ¬ SwitchesMode t st c0 k.ses := by simp [switchesMode_iff, hg, none]
      simp [(ctrlCollision_test ht).mpr hc, no, ctrlCollision]
    · have hg := (takesGeneralPath_iff ht).mpr hc
      have sw : SwitchesMode t st c0 k.ses ↔ detect t st (tentative t st c0 k.ses) k.ses = true := by
        simp [switchesMode_iff, hg, none, detect_iff]
      rw [← ctrlCollision_test ht] at hc
      simp only [Bool.false_eq_true, if_false, hc, sw]
      cases hd : detect t st (tentative t st c0 k.ses) k.ses
      · rw [general_rejected hd]
        split <;> simp
      · simp [general_accepted hd, switchIf]
  · have none : ¬ TakesGeneralPath st c0 := fun h => absurd h.1 (by simp [ht])
    by_cases hn : TakesNumpadEnter t st c0
    · have sw : SwitchesMode t st c0 k.ses ↔ detect t st c0 k.ses = true := by
        simp [switchesMode_iff, hn, none, detect_iff]
      simp only [if_true, tenKey, hn.2.1, if_pos hn.2.2, numpadEnter_currentMode, sw]
      cases detect t st c0 k.ses <;> simp
    · have no : ¬ SwitchesMode t st c0 k.ses := by simp [switchesMode_iff, hn, none]
      refine ⟨fun h => absurd h no, fun _ => ?_⟩
      rw [if_pos rfl]
      unfold tenKey
      split
      · rfl
      · split
        · exact absurd ⟨ht, ‹_›, ‹_›⟩ hn
        · split <;> rfl

/-! ### Step 1 changes nothing that steps 2 to 4 decide on -/

@[simp] theorem switchAccepted_clearPrevious (t : Tables) (st st' c : Byte) (k : Interp) :
    SwitchAccepted t st c (clearPrevious st' k).ses ↔ SwitchAccepted t st c k.ses := by
  simp [SwitchAccepted]

@[simp] theorem heldInModeB_clearPrevious (t : Tables) (st c : Byte) (k : Interp) :
    HeldInModeB t c (clearPrevious st k).ses ↔ HeldInModeB t c k.ses := by
  simp [HeldInModeB]

@[simp] theorem tentative_clearPrevious (t : Tables) (st st' c : Byte) (k : Interp) :
    tentative t st c (clearPrevious st' k).ses = tentative t st c k.ses := by
  simp [tentative]

theorem switchesMode_clearPrevious (t : Tables) (st st' c : Byte) (k : Interp) :
    SwitchesMode t st c (clearPrevious st' k).ses ↔ SwitchesMode t st c k.ses := by
  simp [switchesMode_iff]

theorem registers_clearPrevious (t : Tables) (st st' c0 : Byte) (k : Interp) (r : Fin 19) (c : Fin 16) :
    Registers t st c0 (clearPrevious st' k).ses r c ↔ Registers t st c0 k.ses r c := by
  cases ht : tenkey st
  · by_cases hc : TakesCtrlCollision st c0
    · rw [registers_collision hc, registers_collision hc]
    · have hg := (takesGeneralPath_iff ht).mpr hc
      simp [registers_general hg]
  · simp [registers_tenkey ht]

end Sys2Proof.Machine
end

