-- ==== Sys2Proof/Laws/Decode.lean ====
section
/-! SUPPORT. Fields of concatenated words, which is how encode and decode meet (30_encoding.md R70-R77). -/

namespace Sys2Proof

/-- A field inside the low part of a concatenation. -/
theorem extract_append_low {n m : Nat} (hi : BitVec n) (lo : BitVec m) (s l : Nat) (h : s + l ≤ m) :
    (hi ++ lo).extractLsb' s l = lo.extractLsb' s l := by
  apply BitVec.eq_of_getLsbD_eq
  intro i _
  have : s + i < m := by omega
  simp [BitVec.getLsbD_extractLsb', BitVec.getLsbD_append, this]

/-- A field inside the high part of a concatenation. -/
theorem extract_append_high {n m : Nat} (hi : BitVec n) (lo : BitVec m) (s l : Nat) (h : m ≤ s) :
    (hi ++ lo).extractLsb' s l = hi.extractLsb' (s - m) l := by
  apply BitVec.eq_of_getLsbD_eq
  intro i _
  have : ¬ s + i < m := by omega
  have e : s + i - m = s - m + i := by omega
  simp [BitVec.getLsbD_extractLsb', BitVec.getLsbD_append, this, e]

/-- The field that is the whole value. -/
theorem extract_all {n : Nat} (x : BitVec n) : x.extractLsb' 0 n = x := by
  apply BitVec.eq_of_getLsbD_eq
  intro i hi
  simp [hi]

theorem opcodeOf_edge (pol : Polarity) (t : Ticks) : opcodeOf (encode (.edge pol t)) = 0x1 := by
  unfold opcodeOf encode
  rw [extract_append_high _ _ _ _ (by decide), extract_append_high _ _ _ _ (by decide)]
  rfl

theorem opcodeOf_poll : opcodeOf (encode .poll) = 0x2 := by decide

theorem opcodeOf_readRow (i : BitVec 5) : opcodeOf (encode (.readRow i)) = 0x3 := by
  unfold opcodeOf encode
  rw [extract_append_high _ _ _ _ (by decide)]
  rfl

theorem opcodeOf_init : opcodeOf (encode .init) = 0x4 := by decide

theorem opcodeOf_handleA (st a : Byte) : opcodeOf (encode (.handleA st a)) = 0x5 := by
  unfold opcodeOf encode
  rw [extract_append_high _ _ _ _ (by decide), extract_append_high _ _ _ _ (by decide)]
  rfl

theorem opcodeOf_handleB (g : GameKeys) : opcodeOf (encode (.handleB g)) = 0x6 := by
  unfold opcodeOf encode
  rw [extract_append_high _ _ _ _ (by decide)]
  rfl

/-- A word that fits a row has the row's opcode, for a row whose mask covers the opcode field. -/
theorem opcodeOf_of_fits {f : Format} {w : OpWord} (hm : f.mask.extractLsb' 36 4 = 0xF#4) (h : f.fits w = true) :
    opcodeOf w = f.pattern.extractLsb' 36 4 := by
  have h' : w &&& f.mask = f.pattern := by simpa [Format.fits] using h
  have keep : ∀ x : BitVec 4, x = x &&& 0xF#4 := by decide
  rw [← h', BitVec.extractLsb'_and, hm]
  exact keep _

end Sys2Proof
end

