-- ==== Sys2Proof/Laws/PerInstr.lean ====
section
/-! SUPPORT. The family of statements made once per operation: its word has the opcode of its own row of the opcode table, the row's
agent is the operation's, and its word is put to that agent (30_encoding.md R71). -/

namespace Sys2Proof.Laws.Format

/-- The row of the opcode table an operation belongs to. -/
def row (i : Instr) : Fin 6 := match i with
  | .edge _ _ => 0
  | .poll => 1
  | .readRow _ => 2
  | .init => 3
  | .handleA _ _ => 4
  | .handleB _ => 5

/-- What is said of each operation. -/
def Statement (i : Instr) : Prop :=
  opcodeOf (encode i) = formats[row i].pattern.extractLsb' 36 4 ∧ formats[row i].agent = i.agent ∧
    offeringAgent (encode i) = i.agent

/-- The opcodes of the rows, in their order. -/
theorem opcode_of_row : ∀ r : Fin 6, formats[r].pattern.extractLsb' 36 4 = BitVec.ofNat 4 (r.val + 1) := by decide

theorem edge (pol : Polarity) (t : Ticks) : Statement (.edge pol t) :=
  ⟨by rw [opcode_of_row]; exact opcodeOf_edge pol t, rfl, by simp [offeringAgent, opcodeOf_edge, Instr.agent]⟩

theorem poll : Statement .poll := ⟨opcodeOf_poll, rfl, by decide⟩

theorem readRow (i : BitVec 5) : Statement (.readRow i) :=
  ⟨by rw [opcode_of_row]; exact opcodeOf_readRow i, rfl, by simp [offeringAgent, opcodeOf_readRow, Instr.agent]⟩

theorem init : Statement .init := ⟨opcodeOf_init, rfl, by decide⟩

theorem handleA (st a : Byte) : Statement (.handleA st a) :=
  ⟨by rw [opcode_of_row]; exact opcodeOf_handleA st a, rfl, by simp [offeringAgent, opcodeOf_handleA, Instr.agent]⟩

theorem handleB (g : GameKeys) : Statement (.handleB g) :=
  ⟨by rw [opcode_of_row]; exact opcodeOf_handleB g, rfl, by simp [offeringAgent, opcodeOf_handleB, Instr.agent]⟩

end Sys2Proof.Laws.Format
end

