-- ==== Sys2Proof/Tests/Slice0.lean ====
section
/-! SUPPORT. The model's own tests. Expected results come from the formats of 30_encoding.md and the vectors of 95_test_vectors.md
(each test names its vector), worked out there from the rules. A theorem `witness_<Obligation>` shows concrete values that meet the
hypotheses of that obligation, one conjunct per clause at the ends of its range. -/

namespace Sys2Proof.Tests

open Sys2Proof.Machine

/-! ### Helpers -/

/-- Reset under EXCFG (95_test_vectors.md section 0) and the default windows. -/
def ex : State := State.resetWith ⟨defaultWindows, Config.excfg⟩

/-- The same, with the decoder in a given state. -/
def exDec (d : Decoder) : State := { ex with dec := d }

/-- The same, with the interpreter in a given session and one row of the matrix nonzero. -/
def exSes (ses : Session) (r : Fin 19) (v : Row) : State := { ex with ses := ses, M := writeRow Matrix.reset r v }

/-- The same after HANDLE_B g from reset: mode B, the snapshot g (below bit 16), row 17. -/
def exModeB (g : Row) : State := exSes ⟨.b, g.setWidth 24, 0x00, false⟩ 17 g

/-- The same with one word offered. -/
def exOffer (a : Agent) (w : OpWord) : State := { ex with pending := [⟨a, w⟩] }

/-- The state an outcome goes on in. -/
def nextOf (o : Host.Outcome State Fault Refusal) : Option State := match o with
  | .next t => some t
  | .fault _ => none
  | .refused _ => none

/-- The rows of the matrix that are not 0. -/
def nonzero (M : Matrix) : List (Nat × Row) :=
  ((List.range 19).map fun r => (r, readRowValue M (BitVec.ofNat 5 r))).filter fun p => p.2 != 0

/-- What one operation leaves of the interpreter, and what it returns. -/
def result (i : Instr) (s : State) : Option (List (Nat × Row) × Session × Output) :=
  (nextOf (exec i s)).map fun t => (nonzero t.M, t.ses, t.output)

/-- What one operation leaves of the decoder and the mailbox. -/
def signal (i : Instr) (s : State) : Option (Decoder × Mailbox) := (nextOf (exec i s)).map fun t => (t.dec, t.mbx)

/-- The reason a word is refused. -/
def whyRefused (a : Agent) (w : OpWord) : Option IllFormed := match decodeOffer ⟨a, w⟩ with
  | .ok _ => none
  | .error e => some e

/-- What an offered word decodes to. -/
def decoded (a : Agent) (w : OpWord) : Option Instr := match decodeOffer ⟨a, w⟩ with
  | .ok i => some i
  | .error _ => none

/-! ### Parameters -/

theorem test_default_windows_conform : defaultWindows.conforming = true := by decide

theorem test_excfg_conforms : Config.excfg.conforming = true := by decide

/-- A table that breaks R8 is refused by the check: NUMPAD_ENTER_CODE outside EXT_MAP; an image among the top-row digits; overlapping
header windows. -/
theorem test_nonconforming_parameters_are_refused :
    ({ Config.excfg with numpadEnter := 0x41 } : Config.Tables).conforming = false ∧
    ({ Config.excfg with tenkey := Config.excfg.tenkey.dropLast ++ [(0x3D, 0x30)] } : Config.Tables).conforming = false ∧
    ({ Config.excfg with gameBit := Config.excfg.gameBit.drop 1 } : Config.Tables).conforming = false ∧
    ({ defaultWindows with bHdrLow := ⟨425, 950⟩ } : Config.Windows).conforming = false := by decide

/-! ### Well-formedness: every check refuses an ill-formed word (95_test_vectors.md RF-1 to RF-12) -/

theorem test_refuses_reserved_opcodes :
    ([0x00_0000_0000, 0x70_0000_0000, 0xF0_0000_0000].map (whyRefused .poll)) =
      [some .reservedOpcode, some .reservedOpcode, some .reservedOpcode] ∧
    ([0x00_0000_0000, 0x70_0000_0000, 0xF0_0000_0000].map wordWellFormed) = [false, false, false] := by decide

theorem test_refuses_edge_fixed_bits :
    whyRefused .edge 0x12_0000_0000 = some .edgeFixedBits ∧ whyRefused .edge 0x18_0000_0000 = some .edgeFixedBits ∧
    wordWellFormed 0x12_0000_0000 = false ∧ wordWellFormed 0x18_0000_0000 = false := by decide

theorem test_refuses_poll_fixed_bits :
    whyRefused .poll 0x20_0000_0001 = some .pollFixedBits ∧ wordWellFormed 0x20_0000_0001 = false := by decide

theorem test_refuses_readRow_fixed_bits :
    whyRefused .poll 0x30_0000_0020 = some .readRowFixedBits ∧ wordWellFormed 0x30_0000_0020 = false := by decide

theorem test_refuses_init_fixed_bits :
    whyRefused .poll 0x40_0000_0001 = some .initFixedBits ∧ wordWellFormed 0x40_0000_0001 = false := by decide

theorem test_refuses_handleA_fixed_bits :
    whyRefused .poll 0x50_0001_0000 = some .handleAFixedBits ∧ wordWellFormed 0x50_0001_0000 = false := by decide

theorem test_refuses_handleB_fixed_bits :
    whyRefused .poll 0x60_0100_0000 = some .handleBFixedBits ∧ wordWellFormed 0x60_0100_0000 = false := by decide

theorem test_refuses_wrong_agent :
    whyRefused .poll 0x10_0000_03E8 = some .wrongAgent ∧ whyRefused .edge 0x20_0000_0000 = some .wrongAgent ∧
    Offer.wellFormed ⟨.poll, 0x10_0000_03E8⟩ = false ∧ Offer.wellFormed ⟨.edge, 0x20_0000_0000⟩ = false := by decide

/-! ### Decoding: words written bit by bit from the formats of 30_encoding.md R72-R77 -/

/-- R72: `0001 000 r t[31:0]`. -/
theorem test_decode_edge :
    decoded .edge 0b0001_000_0_00000000_00000000_00000011_11101000 = some (.edge .falling 1000) ∧
    decoded .edge 0b0001_000_1_10000000_00000000_00000000_00000001 = some (.edge .rising 0x80000001) := by decide

/-- R73: `0010` and 36 zeros. -/
theorem test_decode_poll : decoded .poll 0b0010_0000_00000000_00000000_00000000_00000000 = some .poll := by decide

/-- R74: `0011`, 31 zeros, `i[4:0]`. -/
theorem test_decode_readRow :
    decoded .poll 0b0011_0000_00000000_00000000_00000000_000_10010 = some (.readRow 18) ∧
    decoded .poll 0b0011_0000_00000000_00000000_00000000_000_00001 = some (.readRow 1) := by decide

/-- R75: `0100` and 36 zeros. -/
theorem test_decode_init : decoded .poll 0b0100_0000_00000000_00000000_00000000_00000000 = some .init := by decide

/-- R76: `0101`, 20 zeros, `st[7:0]`, `a[7:0]`. -/
theorem test_decode_handleA :
    decoded .poll 0b0101_0000_00000000_00000000_11111110_00000011 = some (.handleA 0xFE 0x03) := by decide

/-- R77: `0110`, 12 zeros, `g[23:0]`. -/
theorem test_decode_handleB :
    decoded .poll 0b0110_0000_00000000_10000000_00000000_00000001 = some (.handleB 0x800001) := by decide

/-- A program of 95_test_vectors.md (P3's words), and the numbers of the opcode table's rows. -/
theorem test_decode_table_words :
    decodeTableWord 40 0x10_0000_1388 = some (.edge .falling 5000) ∧ decodeTableWord 40 0x11_0000_012C = some (.edge .rising 300) ∧
    decodeTableWord 40 0x30_0000_0012 = some (.readRow 18) ∧ decodeTableWord 40 0x50_0000_FF57 = some (.handleA 0xFF 0x57) ∧
    decodeTableWord 40 0x00_0000_0000 = none ∧ decodeTableWord 48 0x01_20_0000_0000 = none := by decide

/-- R81: lines of the assembler syntax. -/
theorem test_assemble_lines :
    assembleLine "EDGE F, 1000" = some [.edge .falling 1000] ∧ assembleLine "edge r 0xFF" = some [.edge .rising 255] ∧
    assembleLine "POLL" = some [.poll] ∧ assembleLine "INIT" = some [.init] ∧ assembleLine "READ_ROW 18" = some [.readRow 18] ∧
    assembleLine "HANDLE_A 0xFE, 0x03" = some [.handleA 0xFE 0x03] ∧ assembleLine "HANDLE_B 0x80_0001" = some [.handleB 0x800001] ∧
    assembleLine "READ_ROW 32" = none := by decide

/-- R82, R83: the pseudo-operations; the words of P1 and P2 of 95_test_vectors.md. -/
theorem test_assemble_frames :
    (assembleLine "FRAME_A 0xFF, 0x41").map (fun ops => (ops.take 6).map encode) =
      some [0x10_0000_1388, 0x11_0000_03E8, 0x10_0000_02BC, 0x11_0000_00FA, 0x10_0000_06D6, 0x11_0000_00FA] ∧
    (assembleLine "FRAME_B 0x000008, idle=9").map (fun ops => (ops.take 5).map encode) =
      some [0x10_0000_0009, 0x11_0000_0190, 0x10_0000_00C8, 0x11_0000_00FA, 0x10_0000_00FA] := by decide

/-! ### One step of each operation (95_test_vectors.md section 2) -/

/-- D-HH-5 (the header high wins at the overlap tick), D-HH-6, D-HA-7, D-HA-1, D-GUARD-1. -/
theorem test_edge_high :
    signal (.edge .falling 725) (exDec ⟨.receivingA, .falling, 0, 0, true⟩) =
      some (⟨.receivingA, .rising, 0, 0, false⟩, Mailbox.reset) ∧
    signal (.edge .falling 726) (exDec ⟨.receivingA, .falling, 0, 0, true⟩) =
      some (⟨.receivingA, .rising, 1, 0, false⟩, Mailbox.reset) ∧
    signal (.edge .falling 1700) (exDec ⟨.receivingA, .falling, 3, 0b101, false⟩) =
      some (⟨.receivingA, .rising, 4, 0xB, false⟩, Mailbox.reset) ∧
    signal (.edge .falling 700) (exDec ⟨.receivingA, .falling, 3, 0b101, false⟩) =
      some (⟨.idle, .rising, 0, 0, false⟩, Mailbox.reset) ∧
    signal (.edge .falling 750) (exDec ⟨.receivingA, .falling, 16, 0xFF41, false⟩) =
      some (⟨.idle, .rising, 0, 0, false⟩, Mailbox.reset) := by decide

/-- D-HL-4, D-HL-5, D-HL-7, D-LO-1, D-DONE-1, D-DONE-3. -/
theorem test_edge_low :
    signal (.edge .rising 1050) (exDec ⟨.idle, .rising, 0, 0, false⟩) =
      some (⟨.receivingA, .falling, 0, 0, true⟩, Mailbox.reset) ∧
    signal (.edge .rising 1051) (exDec ⟨.idle, .rising, 0, 0, false⟩) =
      some (⟨.idle, .falling, 0, 0, false⟩, Mailbox.reset) ∧
    signal (.edge .rising 375) (exDec ⟨.idle, .rising, 0, 0, false⟩) =
      some (⟨.receivingB, .falling, 0, 0, true⟩, Mailbox.reset) ∧
    signal (.edge .rising 224) (exDec ⟨.receivingA, .rising, 3, 0b101, false⟩) =
      some (⟨.idle, .falling, 0, 0, false⟩, Mailbox.reset) ∧
    signal (.edge .rising 250) (exDec ⟨.receivingA, .rising, 16, 0xFF41, false⟩) =
      some (Decoder.reset, ⟨true, ⟨false, 0xFF, 0x41, 0⟩⟩) ∧
    signal (.edge .rising 250) (exDec ⟨.receivingB, .rising, 24, 0x800001, false⟩) =
      some (Decoder.reset, ⟨true, ⟨true, 0xFF, 0xFF, 0x800001⟩⟩) := by decide

/-- MB-4's first POLL: changed, and the slot is kept. -/
theorem test_poll_full :
    (nextOf (exec .poll { ex with mbx := ⟨true, ⟨false, 0xFF, 0x41, 0⟩⟩ })).map (fun t => (nonzero t.M, t.mbx, t.output)) =
      some ([(4, 0x0002)], ⟨false, ⟨false, 0xFF, 0x41, 0⟩⟩, .changed true) := by decide

/-- H-POLL-1; H-POLL-3 (a packet handled, the matrix equal). -/
theorem test_poll_unchanged :
    result .poll ex = some ([], Session.reset, .changed false) ∧
    result .poll { exModeB 0x0008 with mbx := ⟨true, ⟨true, 0xFF, 0xFF, 0x000008⟩⟩ } =
      some ([(17, 0x0008)], ⟨.b, 0x000008, 0x00, false⟩, .changed false) := by decide

/-- H-RR-1. -/
theorem test_readRow :
    ([4, 16, 18, 19, 31].map fun i => (result (.readRow i) (exSes ⟨.a, 0, 0x41, false⟩ 4 0x0002)).map fun r => r.2.2) =
      [some (.row 0x0002), some (.row 0), some (.row 0), some (.row 0), some (.row 0)] := by decide

/-- H-INIT-1; the refusal mark stays (10_state.md R40). -/
theorem test_init :
    (nextOf (exec .init { exModeB 0x0001 with dec := ⟨.receivingA, .falling, 3, 7, false⟩, refused := true })) =
      some { ex with refused := true } := by decide

/-- I-NE-5, I-KANA-1, I-KANA-2, I-KANA-3, I-ARB-3, I-ARB-4. -/
theorem test_handleA_modeB :
    [result (.handleA 0x7E 0x0D) (exModeB 0x0002), result (.handleA 0xFB 0xC0) (exModeB 0), result (.handleA 0xFB 0xC1) (exModeB 0),
      result (.handleA 0xFB 0xC1) (exModeB 0x0008), result (.handleA 0xFF 0x1B) (exModeB 0), result (.handleA 0xFE 0x1B) (exModeB 0)] =
    [some ([(16, 0x0001), (17, 0x0002)], ⟨.b, 0x000002, 0x00, false⟩, .changed true),
      some ([(11, 0x0002), (16, 0x0004)], ⟨.b, 0, 0xB1, false⟩, .changed true),
      some ([(12, 0x0002), (16, 0x0004)], ⟨.a, 0, 0xC1, false⟩, .changed true),
      some ([(16, 0x0004), (17, 0x0008)], ⟨.b, 0x000008, 0x00, false⟩, .changed true),
      some ([(1, 0x0800)], ⟨.b, 0, 0x1B, false⟩, .changed true),
      some ([(1, 0x0800), (16, 0x0001)], ⟨.a, 0, 0x1B, false⟩, .changed true)] := by decide

/-- I-TK-5, I-EXT-3, I-CC-1, I-CC-3, I-REP-2, I-MOD-4, I-TK-7. -/
theorem test_handleA_modeA :
    [result (.handleA 0x7E 0x31) ex, result (.handleA 0xFF 0x41) (exSes ⟨.a, 0, 0x00, true⟩ 16 0x0040), result (.handleA 0xFE 0x03) ex,
      result (.handleA 0xFC 0x03) ex, result (.handleA 0xDF 0x42) (exSes ⟨.a, 0, 0x41, false⟩ 4 0x0002),
      result (.handleA 0x00 0x41) ex, result (.handleA 0x7F 0x20) ex] =
    [some ([(8, 0x0080), (16, 0x0001)], ⟨.a, 0, 0x87, false⟩, .changed true),
      some ([(4, 0x0002)], ⟨.a, 0, 0x41, false⟩, .changed true),
      some ([(4, 0x0008), (16, 0x0001)], ⟨.a, 0, 0x43, false⟩, .changed true),
      some ([(0, 0x0008), (16, 0x0003)], ⟨.a, 0, 0x03, false⟩, .changed true),
      some ([(4, 0x0006)], ⟨.a, 0, 0x42, false⟩, .changed true),
      some ([(4, 0x0002), (16, 0x001F)], ⟨.a, 0, 0x41, false⟩, .changed true),
      some ([(2, 0x0001)], ⟨.a, 0, 0x20, false⟩, .changed true)] := by decide

/-- I-B-1, I-B-3. -/
theorem test_handleB :
    result (.handleB 0x800001) ex = some ([(17, 0x0001), (18, 0x0080)], ⟨.b, 0x800001, 0x00, false⟩, .changed true) ∧
    result (.handleB 0x000000) ex = some ([], ⟨.b, 0, 0x00, false⟩, .changed false) := by decide

/-- RF-11 as a step: the word is taken, `refused` is set, nothing else changes. -/
theorem test_step_refuses : nextOf (step (exOffer .poll 0x10_0000_03E8)) = some { ex with refused := true } := by decide

/-- The word the host places is fetched and run, whatever the tables are. -/
theorem test_withFetchWord : ∀ t : Config.Tables,
    (nextOf (step ((State.resetWith ⟨defaultWindows, t⟩).withFetchWord 40 0x60_0080_0001))).map (fun u => (nonzero u.M, u.pending)) =
      some ([(17, 0x0001), (18, 0x0080)], []) := fun _ => rfl

/-! ### Witnesses: concrete values that meet the hypotheses of the obligations -/

theorem witness_EncodeOfDecodeIsTheWord : decode 0x11_FFFF_FFFF = .ok (.edge .rising 0xFFFFFFFF) ∧ decode 0x30_0000_001F = .ok (.readRow 31) :=
  ⟨rfl, rfl⟩

theorem witness_StepRunsTheDecodedInstruction :
    (exOffer .poll 0x30_0000_0004).pending = ⟨.poll, 0x30_0000_0004⟩ :: [] ∧ decode 0x30_0000_0004 = .ok (.readRow 4) ∧
    (Instr.readRow 4).agent = .poll := ⟨rfl, rfl, rfl⟩

/-- Both clauses: an ill-formed word, and a word of the other agent. -/
theorem witness_StepRefusesIllFormedAndWrongAgentWords :
    ((exOffer .poll 0x40_0000_0001).pending = ⟨.poll, 0x40_0000_0001⟩ :: [] ∧ ∃ e, decode 0x40_0000_0001 = .error e) ∧
    ((exOffer .edge 0x20_0000_0000).pending = ⟨.edge, 0x20_0000_0000⟩ :: [] ∧
      ∃ i, decode 0x20_0000_0000 = .ok i ∧ i.agent ≠ .edge) :=
  ⟨⟨rfl, _, rfl⟩, rfl, _, rfl, by decide⟩

theorem witness_StepWithNothingOfferedKeepsTheState : ex.pending = [] := rfl

/-- Both sides of the equivalence: a step that refuses its word, and one that does not. -/
theorem witness_RefusedMarkIsSetExactlyByARefusedWord :
    (∃ t, step (exOffer .poll 0x70_0000_0000) = .next t ∧ t.refused = true) ∧
    ∃ t, step (exOffer .poll 0x20_0000_0000) = .next t ∧ t.refused = false := ⟨⟨_, rfl, rfl⟩, _, rfl, rfl⟩

theorem witness_NoStepWritesTheParameters : ∃ t, step (exOffer .poll 0x40_0000_0000) = .next t := ⟨_, rfl⟩

theorem witness_EachOperationReturnsItsKindOfValue :
    (∃ t, exec (.edge .falling 5) ex = .next t) ∧ (∃ t, exec .poll ex = .next t) ∧ (∃ t, exec (.readRow 18) ex = .next t) ∧
    (∃ t, exec .init ex = .next t) ∧ (∃ t, exec (.handleA 0xFF 0x41) ex = .next t) ∧ ∃ t, exec (.handleB 1) ex = .next t :=
  ⟨⟨_, rfl⟩, ⟨_, rfl⟩, ⟨_, rfl⟩, ⟨_, rfl⟩, ⟨_, rfl⟩, _, rfl⟩

/-- D-IGN-1. -/
theorem witness_EdgeOfUnarmedPolarityIsIgnored : Polarity.rising ≠ ex.dec.armed := by decide

theorem witness_EdgeFallingInIdleOnlyArmsTheRisingEdge : ex.dec.phase = .idle ∧ ex.dec.armed = .falling := ⟨rfl, rfl⟩

/-- The hypotheses, and the three clauses at the ends of the two header windows (D-HL-1 to D-HL-10). -/
theorem witness_EdgeRisingInIdleClassifiesTheHeader :
    (exDec ⟨.idle, .rising, 0, 0, false⟩).dec.phase = .idle ∧ (exDec ⟨.idle, .rising, 0, 0, false⟩).dec.armed = .rising ∧
    ([949, 950, 1050, 1051].map fun t => inWindow t ex.cfg.windows.aHdrLow) = [false, true, true, false] ∧
    ([374, 375, 425, 426].map fun t => inWindow t ex.cfg.windows.bHdrLow) = [false, true, true, false] :=
  ⟨rfl, rfl, by decide, by decide⟩

/-- The hypotheses; the header clause at its last tick, which is also a 0 bit's first; then each bit clause, and the abort clause of a full
frame and of a tick in no window. -/
theorem witness_EdgeHighSampleIsHeaderHighOrABitOrAborts :
    (exDec ⟨.receivingA, .falling, 0, 0, true⟩).dec.phase = receiving .a ∧
    (exDec ⟨.receivingA, .falling, 0, 0, true⟩).dec.armed = .falling ∧
    ([674, 675, 725, 726].map fun t => inWindow t (hdrHigh ex.cfg.windows .a)) = [false, true, true, false] ∧
    ([724, 725, 775, 776].map fun t => inWindow t (bit0High ex.cfg.windows .a)) = [false, true, true, false] ∧
    ([1699, 1700, 1800, 1801].map fun t => inWindow t (bit1High ex.cfg.windows .a)) = [false, true, true, false] ∧
    (15 : BitVec 5) < frameLen .a ∧ ¬ (16 : BitVec 5) < frameLen .a :=
  ⟨rfl, rfl, by decide, by decide, by decide, by decide, by decide⟩

/-- The hypotheses, the ends of the window, and the two sides of the frame length in each mode. -/
theorem witness_EdgeLowSampleContinuesPublishesOrAborts :
    (exDec ⟨.receivingA, .rising, 16, 0xFF41, false⟩).dec.phase = receiving .a ∧
    (exDec ⟨.receivingB, .rising, 24, 0x800001, false⟩).dec.phase = receiving .b ∧
    (exDec ⟨.receivingA, .rising, 16, 0xFF41, false⟩).dec.armed = .rising ∧
    ([224, 225, 275, 276].map fun t => inWindow t ex.cfg.windows.bitLow) = [false, true, true, false] ∧
    (15 : BitVec 5) ≠ frameLen .a ∧ (16 : BitVec 5) = frameLen .a ∧ (23 : BitVec 5) ≠ frameLen .b ∧ (24 : BitVec 5) = frameLen .b :=
  ⟨rfl, rfl, rfl, by decide, by decide, by decide, by decide, by decide⟩

/-- The premises of the last clause: two states that differ in the interpreter only. -/
theorem witness_EdgeNeitherReadsNorWritesTheInterpreter :
    (exModeB 0x0008).dec = ex.dec ∧ (exModeB 0x0008).mbx = ex.mbx ∧ (exModeB 0x0008).cfg = ex.cfg ∧ (exModeB 0x0008).M ≠ ex.M :=
  ⟨rfl, rfl, rfl, by decide⟩

theorem witness_EdgePublishesOnlyFullFrames :
    ∃ t, exec (.edge .rising 275) (exDec ⟨.receivingB, .rising, 24, 0x800001, false⟩) = .next t ∧ t.mbx.ready = true := ⟨_, rfl, rfl⟩

/-- EX-1, with the ticks just outside the header windows. -/
theorem witness_EdgesWithoutAHeaderEmitNoPacket :
    ex.dec.phase = .idle ∧
    ∀ t, (Polarity.rising, t) ∈ [(Polarity.falling, (1000 : Ticks)), (.rising, 949), (.falling, 0), (.rising, 1051), (.rising, 374), (.rising, 426)] →
      inWindow t ex.cfg.windows.aHdrLow = false ∧ inWindow t ex.cfg.windows.bHdrLow = false := by
  refine ⟨rfl, fun t h => ?_⟩
  simp only [List.mem_cons, Prod.mk.injEq, List.not_mem_nil, or_false, reduceCtorEq, false_and, true_and, false_or] at h
  rcases h with rfl | rfl | rfl | rfl <;> decide

/-- EX-2 at the minimum times. -/
theorem witness_ConformingModeAFrameIsPublished :
    ex.dec.phase = .idle ∧ ex.dec.armed = .falling ∧ ex.cfg.windows.conforming = true ∧
    ex.cfg.windows.aBit0High.disjoint ex.cfg.windows.aBit1High = true ∧
    FrameTimes.conforms ex.cfg.windows .a (bitsA 0x00 0x00) ⟨5000, 950, 675, List.replicate 16 ⟨225, 725⟩, 225⟩ = true ∧
    FrameTimes.conforms ex.cfg.windows .a (bitsA 0xFF 0xFF) ⟨0, 1050, 725, List.replicate 16 ⟨275, 1800⟩, 275⟩ = true :=
  ⟨rfl, rfl, by decide, by decide, by decide, by decide⟩

/-- EX-3 at the minimum times. -/
theorem witness_ConformingModeBFrameIsPublished :
    ex.dec.phase = .idle ∧ ex.dec.armed = .falling ∧ ex.cfg.windows.conforming = true ∧
    ex.cfg.windows.bBit0High.disjoint ex.cfg.windows.bBit1High = true ∧
    FrameTimes.conforms ex.cfg.windows .b (bitsB 0x000000) ⟨5000, 375, 175, List.replicate 24 ⟨225, 225⟩, 225⟩ = true ∧
    FrameTimes.conforms ex.cfg.windows .b (bitsB 0xFFFFFF) ⟨0, 425, 225, List.replicate 24 ⟨275, 775⟩, 275⟩ = true :=
  ⟨rfl, rfl, by decide, by decide, by decide, by decide⟩

/-- D-HH-2: the header high of `FRAME_A 0xFF, 0x41` is 750. -/
theorem witness_HeaderHighInABitWindowIsAnExtraLeadingBit :
    ex.dec.phase = .idle ∧ ex.dec.armed = .falling ∧ ex.cfg.windows.conforming = true ∧
    (bit0High ex.cfg.windows .a).disjoint (bit1High ex.cfg.windows .a) = true ∧ (bitsA 0xFF 0x41).length = (frameLen .a).toNat ∧
    inWindow 1000 (hdrLow ex.cfg.windows .a) = true ∧ inWindow 750 (hdrHigh ex.cfg.windows .a) = false ∧
    inWindow 750 (bitHigh ex.cfg.windows .a false) = true ∧
    bitsConform ex.cfg.windows .a (bitsA 0xFF 0x41) (nominalA 0xFF 0x41 5000).bits = true ∧
    inWindow 250 ex.cfg.windows.bitLow = true ∧ inWindow 250 ex.cfg.windows.aHdrLow = false ∧
    inWindow 250 ex.cfg.windows.bHdrLow = false ∧
    assemble .a (bitsValue (false :: (bitsA 0xFF 0x41).dropLast)) = ⟨false, 0x7F, 0xA0, 0⟩ :=
  ⟨rfl, rfl, by decide, by decide, by decide, by decide, by decide, by decide, by decide, by decide, by decide, by decide, by decide⟩

/-- EX-8. -/
theorem witness_FrameThenPollIsHandleA :
    let s : State := { ex with pending := (nominalA 0xFF 0x41 5000).edges.map Instr.offer ++ Instr.poll.offer :: [] }
    s.dec.phase = .idle ∧ s.dec.armed = .falling ∧ s.cfg.windows.conforming = true ∧
    s.cfg.windows.aBit0High.disjoint s.cfg.windows.aBit1High = true ∧
    (nominalA 0xFF 0x41 5000).conforms s.cfg.windows .a (bitsA 0xFF 0x41) = true ∧
    s.pending = (nominalA 0xFF 0x41 5000).edges.map Instr.offer ++ Instr.poll.offer :: [] :=
  ⟨rfl, rfl, by decide, by decide, by decide, rfl⟩

theorem witness_ShortestConformingFrameDurations :
    ((List.replicate 16 false).length = 16 ∧
      FrameTimes.conforms defaultWindows .a (List.replicate 16 false) ⟨0, 950, 675, List.replicate 16 ⟨225, 725⟩, 225⟩ = true) ∧
    (List.replicate 24 true).length = 24 ∧
      FrameTimes.conforms defaultWindows .b (List.replicate 24 true) ⟨0, 375, 175, List.replicate 24 ⟨225, 725⟩, 225⟩ = true := by
  decide

theorem witness_TakeAnswersTheLastPublishedPacketOnce : Mailbox.reset.ready = false := rfl

/-- Each clause: an empty mailbox, a Mode B packet and a Mode A packet waiting. -/
theorem witness_PollDrainsTheMailboxAndReportsTheChange :
    ex.mbx.ready = false ∧
    (({ ex with mbx := ⟨true, packetB 0x800001⟩ } : State).mbx.ready = true ∧
      ({ ex with mbx := ⟨true, packetB 0x800001⟩ } : State).mbx.slot.isModeB = true) ∧
    ({ ex with mbx := ⟨true, packetA 0xFF 0x41⟩ } : State).mbx.ready = true ∧
    ({ ex with mbx := ⟨true, packetA 0xFF 0x41⟩ } : State).mbx.slot.isModeB = false := ⟨rfl, ⟨rfl, rfl⟩, rfl, rfl⟩

/-- The premise of the second clause, and both its cases: an operation that publishes nothing, and the EDGE that completes a frame. -/
theorem witness_HandledPacketIsNotHandledAgain :
    ex.mbx.ready = false ∧ (∃ t, exec (.handleB 7) ex = .next t ∧ t.mbx.ready = false) ∧
    (exDec ⟨.receivingA, .rising, 16, 0xFF41, false⟩).mbx.ready = false ∧
    ∃ t, exec (.edge .rising 225) (exDec ⟨.receivingA, .rising, 16, 0xFF41, false⟩) = .next t ∧ t.mbx.ready = true :=
  ⟨rfl, ⟨_, rfl, rfl⟩, rfl, _, rfl, rfl⟩

/-- Each of the three operations; HANDLE_B both ways. -/
theorem witness_ChangedReportsADifferingCell :
    (∃ t, exec .poll ex = .next t ∧ t.output = .changed false) ∧
    (∃ t, exec (.handleA 0xFF 0x41) ex = .next t ∧ t.output = .changed true) ∧
    (∃ t, exec (.handleB 0) ex = .next t ∧ t.output = .changed false) ∧
    ∃ t, exec (.handleB 1) ex = .next t ∧ t.output = .changed true := ⟨⟨_, rfl, rfl⟩, ⟨_, rfl, rfl⟩, ⟨_, rfl, rfl⟩, _, rfl, rfl⟩

/-- The first clause at its first and last row, the second at its first and last index; the third in a state with row 18 full. -/
theorem witness_ReadRowReturnsTheRowAndWritesNothing :
    (0 : BitVec 5).toNat = (0 : Fin 19).val ∧ (18 : BitVec 5).toNat = (18 : Fin 19).val ∧ 19 ≤ (19 : BitVec 5).toNat ∧
    19 ≤ (31 : BitVec 5).toNat ∧ hardwiredZero (exSes ⟨.b, 0xFF0000, 0x00, false⟩ 18 0x00FF).M :=
  ⟨by decide, by decide, by decide, by decide, by decide, by decide⟩

/-- I-TK-1 and I-TK-4. -/
theorem witness_HandleATenKeyRemapRegistersTheImage :
    tenkey 0x7F = true ∧ tenkeyMap ex.cfg.tables 0x31 = some 0x87 ∧ tenkeyMap ex.cfg.tables 0x3D = some 0x90 := by decide

/-- I-EXT-1. -/
theorem witness_HandleATenKeySpecialCodeSetsItsExtendedBit :
    tenkey 0x7F = true ∧ tenkeyMap ex.cfg.tables 0x1E = none ∧ (0x1E : Byte) ≠ ex.cfg.tables.numpadEnter ∧
    extMap ex.cfg.tables 0x1E = some 1 := by decide

/-- I-NE-3 (accepted), I-NE-2 (suppressed), I-NE-4 (neither). -/
theorem witness_HandleANumpadEnterArbitrates :
    (tenkey 0x7F = true ∧ tenkey 0x7E = true ∧ tenkeyMap ex.cfg.tables 0x0D = none ∧ (0x0D : Byte) = ex.cfg.tables.numpadEnter ∧
      extMap ex.cfg.tables 0x0D = some 0) ∧
    SwitchAccepted ex.cfg.tables 0x7E 0x0D (exModeB 0).ses ∧
    (¬ SwitchAccepted ex.cfg.tables 0x7F 0x0D (exModeB 0x0002).ses ∧ HeldInModeB ex.cfg.tables 0x0D (exModeB 0x0002).ses) ∧
    ¬ SwitchAccepted ex.cfg.tables 0x7F 0x0D (exModeB 0).ses ∧ ¬ HeldInModeB ex.cfg.tables 0x0D (exModeB 0).ses := by
  simp only [← detect_iff, ← suppress_iff]
  decide

/-- I-TK-7. -/
theorem witness_HandleATenKeyOtherCodeRegistersItself :
    tenkey 0x7F = true ∧ tenkeyMap ex.cfg.tables 0x20 = none ∧ (0x20 : Byte) ≠ ex.cfg.tables.numpadEnter ∧
    extMap ex.cfg.tables 0x20 = none := by decide

/-- I-CC-1 and I-CC-2. -/
theorem witness_HandleACtrlCollisionRegistersTheLetter :
    tenkey 0xFE = false ∧ ctrl 0xFE = true ∧ shift 0xFE = false ∧
    ((0x03 : Byte) = 0x03 ∧ (0x43 : Byte) = 0x43 ∨ (0x03 : Byte) = 0x12 ∧ (0x43 : Byte) = 0x52) ∧
    ((0x12 : Byte) = 0x03 ∧ (0x52 : Byte) = 0x43 ∨ (0x12 : Byte) = 0x12 ∧ (0x52 : Byte) = 0x52) := by decide

/-- I-ARB-1 (accepted), I-ARB-2 (suppressed), I-ARB-3 (neither); I-KANA-2 and the ends of the kana block; I-CC-3 (ctrl with shift is no
collision). -/
theorem witness_HandleAGeneralPathArbitrates :
    (tenkey 0xFF = false ∧ tenkey 0xFB = false ∧ ¬ (ctrl 0xFC = true ∧ shift 0xFC = false ∧ ((0x03 : Byte) = 0x03 ∨ (0x03 : Byte) = 0x12))) ∧
    SwitchAccepted ex.cfg.tables 0xFF 0x57 (exModeB 0x0008).ses ∧
    (¬ SwitchAccepted ex.cfg.tables 0xFF 0x51 (exModeB 0x0008).ses ∧ HeldInModeB ex.cfg.tables 0x51 (exModeB 0x0008).ses) ∧
    (¬ SwitchAccepted ex.cfg.tables 0xFF 0x1B (exModeB 0).ses ∧ ¬ HeldInModeB ex.cfg.tables 0x1B (exModeB 0).ses) ∧
    ((exModeB 0).ses.currentMode = .b ∧ kana 0xFB = true) ∧
    kanaMap ex.cfg.tables (((0xC1 - 0xA0 : Byte) >>> 4).setWidth 2) ((0xC1 : Byte).extractLsb' 0 4) = 0x51 ∧
    SwitchAccepted ex.cfg.tables 0xFB 0x51 (exModeB 0).ses ∧
    kanaMap ex.cfg.tables (((0xA0 - 0xA0 : Byte) >>> 4).setWidth 2) ((0xA0 : Byte).extractLsb' 0 4) = 0xA0 ∧
    kanaMap ex.cfg.tables (((0xDF - 0xA0 : Byte) >>> 4).setWidth 2) ((0xDF : Byte).extractLsb' 0 4) = 0xDF := by
  simp only [← detect_iff, ← suppress_iff]
  decide

/-- Each clause: a repeat, a genuine new key. -/
theorem witness_ClearPreviousClearsTheHeldKeyPath : isRepeat 0xDF = true ∧ isRepeat 0xFF = false := by decide

/-- The last clause: the cell after the modifiers, and a row outside row 16. -/
theorem witness_HandleAAssignsTheModifierCells :
    ¬ ((16 : Fin 19) = 16 ∧ (5 : Fin 16).val < 5) ∧ ¬ ((15 : Fin 19) = 16 ∧ (0 : Fin 16).val < 5) := by decide

/-- A genuine new key: the last cell is cleared, the cell its branch registers is set, and no other is registered. -/
theorem witness_HandleALeavesTheRestUnchanged :
    (∃ t, exec (.handleA 0xFF 0x42) (exSes ⟨.a, 0, 0x41, false⟩ 4 0x0002) = .next t ∧
      cell t.M 4 1 = false ∧ cell t.M 4 2 = true) ∧
    ∀ r c, Registers ex.cfg.tables 0xFF 0x42 ⟨.a, 0, 0x41, false⟩ r c ↔ r = 4 ∧ c = 2 := by
  refine ⟨⟨_, rfl, by decide, by decide⟩, fun r c => ?_⟩
  rw [registers_general ⟨by decide, by decide⟩, ← detect_iff, ← suppress_iff]
  exact ⟨fun h => h.elim (fun h => absurd h.1 (by decide)) fun h => h.2.2, fun h => .inr ⟨by decide, by decide, h⟩⟩

/-- Every other place that registers a cell: I-TK-1, I-EXT-1, I-NE-3, I-TK-7, I-CC-1, I-CC-2, I-KANA-2; a suppressed packet registers none
(I-ARB-2). -/
theorem test_registers :
    Registers ex.cfg.tables 0x7F 0x31 ex.ses 8 7 ∧ Registers ex.cfg.tables 0x7F 0x1E ex.ses 16 6 ∧
    Registers ex.cfg.tables 0x7E 0x0D (exModeB 0).ses 16 5 ∧ Registers ex.cfg.tables 0x7F 0x20 ex.ses 2 0 ∧
    Registers ex.cfg.tables 0xFE 0x03 ex.ses 4 3 ∧ Registers ex.cfg.tables 0xFE 0x12 ex.ses 5 2 ∧
    Registers ex.cfg.tables 0xFB 0xC1 (exModeB 0).ses 12 1 ∧
    ∀ r c, ¬ Registers ex.cfg.tables 0xFF 0x51 (exModeB 0x0008).ses r c := by
  refine ⟨.tenkeyImage 0x87 (by decide) (by decide) ⟨by decide, by decide⟩,
    .special 1 (by decide) (by decide) (by decide) (by decide) ⟨by decide, by decide⟩,
    .numpadEnter 0 ⟨by decide, by decide, by decide⟩ (by decide) (.inl ((detect_iff _ _ _ _).mp (by decide))) ⟨by decide, by decide⟩,
    .tenkeyOther (by decide) (by decide) (by decide) (by decide) ⟨by decide, by decide⟩,
    .ctrlC ⟨by decide, by decide, by decide, by decide⟩ rfl ⟨by decide, by decide⟩,
    .ctrlR ⟨by decide, by decide, by decide, by decide⟩ rfl ⟨by decide, by decide⟩,
    .original ⟨by decide, by decide⟩ ((detect_iff _ _ _ _).mp (by decide)) ⟨by decide, by decide⟩, fun r c => ?_⟩
  rw [registers_general ⟨by decide, by decide⟩, ← detect_iff, ← suppress_iff]
  exact fun h => h.elim (fun h => absurd h.1 (by decide)) fun h => absurd h.2.1 (by decide)

/-- EX-5 (a), EX-5 (b), EX-6. -/
theorem witness_ModeBArbitrationOfAnAmbiguousCode :
    ((exModeB 0x0008).ses.currentMode = .b ∧ tenkey 0xFF = false ∧ kana 0xFF = false ∧ ctrl 0xFF = false) ∧
    (gameBit ex.cfg.tables 0x57 = some 4 ∧ (exModeB 0x0008).ses.snapshot.getLsbD 4 = false ∧
      ¬ ((0x57 : Byte) = 0x1B ∨ (0x57 : Byte) = 0x0D ∨ (0x57 : Byte) = 0x09)) ∧
    (gameBit ex.cfg.tables 0x51 = some 3 ∧ (exModeB 0x0008).ses.snapshot.getLsbD 3 = true) ∧
    gameBit ex.cfg.tables 0x1B = some 0 ∧ (exModeB 0x0008).ses.snapshot.getLsbD 0 = false ∧ ctrl 0xFE = true := by decide

/-- EX-7 at both ends of the range. -/
theorem witness_TenKeyImagesAreDistinctAndAvoidTheDigits :
    ex.cfg.tables.conforming = true ∧ tenkey 0x7F = true ∧ (0x2A : Byte) ≤ 0x2A ∧ (0x39 : Byte) ≤ 0x39 ∧
    tenkeyMap ex.cfg.tables 0x2A = some 0x80 ∧ tenkeyMap ex.cfg.tables 0x39 = some 0x8F := by decide

/-- Each of the ways the mode changes: INIT; a Mode B packet; a switch on the general path for the tentative code (I-ARB-1, I-KANA-2) and for
numpad-enter (I-NE-3). -/
theorem witness_CurrentModeIsWrittenOnlyAsStated :
    (∃ t, exec .init (exModeB 0) = .next t ∧ t.ses.currentMode ≠ (exModeB 0).ses.currentMode) ∧
    (∃ t, exec (.handleB 0) ex = .next t ∧ t.ses.currentMode ≠ ex.ses.currentMode) ∧
    (∃ t, exec (.handleA 0xFF 0x57) (exModeB 0x0008) = .next t ∧ t.ses.currentMode ≠ (exModeB 0x0008).ses.currentMode) ∧
    SwitchesMode ex.cfg.tables 0xFF 0x57 (exModeB 0x0008).ses ∧ SwitchesMode ex.cfg.tables 0xFB 0xC1 (exModeB 0).ses ∧
    SwitchesMode ex.cfg.tables 0x7E 0x0D (exModeB 0).ses := by
  refine ⟨⟨_, rfl, by decide⟩, ⟨_, rfl, by decide⟩, ⟨_, rfl, by decide⟩, .general ⟨by decide, by decide⟩ ?_,
    .general ⟨by decide, by decide⟩ ?_, .numpadEnter ⟨by decide, by decide, by decide⟩ ?_⟩ <;>
    exact (detect_iff _ _ _ _).mp (by decide)

/-- Each clause: a Mode B packet, a Mode A packet, no packet, INIT. -/
theorem witness_SnapshotIsTheLastModeBPacketHandled :
    (∃ t, exec (.handleB 7) ex = .next t ∧ handledPacket (.handleB 7) ex = some (packetB 7) ∧ (packetB 7).isModeB = true) ∧
    (∃ t, exec (.handleA 0xFF 0x41) ex = .next t ∧ handledPacket (.handleA 0xFF 0x41) ex = some (packetA 0xFF 0x41) ∧
      (packetA 0xFF 0x41).isModeB = false) ∧
    (∃ t, exec .poll ex = .next t ∧ handledPacket .poll ex = none ∧ Instr.poll ≠ .init) ∧
    ∃ t, exec .init ex = .next t := ⟨⟨_, rfl, rfl, rfl⟩, ⟨_, rfl, rfl, rfl⟩, ⟨_, rfl, rfl, by decide⟩, _, rfl⟩

/-- Each clause: an operation that hands over no packet; a poll-agent operation; one that is not POLL. -/
theorem witness_EachComponentIsWrittenOnlyByItsOwner :
    (∃ t, exec (.edge .falling 5) ex = .next t ∧ Instr.edge .falling 5 ≠ .init ∧ handledPacket (.edge .falling 5) ex = none) ∧
    ∃ t, exec (.readRow 3) ex = .next t ∧ Instr.readRow 3 ≠ .init ∧ (Instr.readRow 3).agent = .poll ∧ Instr.readRow 3 ≠ .poll :=
  ⟨⟨_, rfl, by decide, rfl⟩, _, rfl, by decide, rfl, by decide⟩

/-- In the middle of a frame, one bit received, the next edge offered. -/
theorem witness_EveryStepKeepsTheInvariant :
    let s : State := { ex with dec := ⟨.receivingA, .rising, 1, 1, false⟩, pending := [⟨.edge, 0x11_0000_00FA⟩] }
    s.Inv ∧ ∃ t, step s = .next t := by
  refine ⟨⟨⟨by decide, ?_, by decide, by decide⟩, ⟨by decide, by decide⟩, ⟨by decide, by decide⟩, by decide⟩, _, rfl⟩
  intro m h
  cases h
  decide

/-- A full frame that waits for its low time, and the edge that gives it. -/
theorem witness_FullFrameAlwaysWaitsForALowTime :
    let s : State := { ex with dec := ⟨.receivingA, .rising, 16, 0xFF41, false⟩, pending := [⟨.edge, 0x11_0000_00FA⟩] }
    s.dec.fullWaitsForLow ∧ ∃ t, step s = .next t := ⟨fun _ _ _ => rfl, _, rfl⟩

/-- One held key, and a genuine new key offered. -/
theorem witness_GenuineKeysKeepOneKeyPath :
    let s : State := { exSes ⟨.a, 0, 0x41, false⟩ 4 0x0002 with pending := [⟨.poll, 0x50_0000_FF42⟩] }
    s.interp.OneKeyPath ∧
    (∀ o rest i p, s.pending = o :: rest → decodeOffer o = .ok i → handledPacket i s = some p → p.genuine) ∧
    ∃ t, step s = .next t := by
  refine ⟨⟨fun _ => by decide, fun _ => by decide, by decide, by decide⟩, ?_, _, rfl⟩
  intro o rest i p hp hd hh
  cases hp
  cases hd
  cases hh
  exact .inr (by decide)

/-- Each of the four cases, the last at the last bit before a full frame. -/
theorem witness_AgentsMeetOnlyInTheMailbox :
    ((∃ r, Instr.readRow 3 = .readRow r) ∧ (∃ st a, Instr.handleA 0xFF 0x41 = .handleA st a) ∧ (∃ g, Instr.handleB 7 = .handleB g)) ∧
    ∀ m, (exDec ⟨.receivingA, .rising, 15, 0, false⟩).dec.phase = receiving m →
      (exDec ⟨.receivingA, .rising, 15, 0, false⟩).dec.bitcnt ≠ frameLen m := by
  refine ⟨⟨⟨_, rfl⟩, ⟨_, _, rfl⟩, _, rfl⟩, fun m h => ?_⟩
  cases m
  · decide
  · cases h

end Sys2Proof.Tests
end

section
/-! Proofs about the block's state (10_state.md R29, R30, R39, R40). What an operation does to the interpreter, and what it
leaves alone, is said once here; the four statements follow from it. -/

namespace Sys2Proof.Machine

open Config

/-! ### HANDLE on a packet of either mode -/

theorem handle_of_isModeB (t : Tables) {p : Packet} (h : p.isModeB = true) (k : Interp) :
    handle t p k = modeB p.gameKeys k := if_pos h

theorem handle_of_not_isModeB (t : Tables) {p : Packet} (h : p.isModeB = false) (k : Interp) :
    handle t p k = modeA t p.status p.ascii k := if_neg (by simp [h])

@[simp] theorem modeB_currentMode (g : GameKeys) (k : Interp) : (modeB g k).ses.currentMode = .b := rfl
@[simp] theorem modeB_snapshot (g : GameKeys) (k : Interp) : (modeB g k).ses.snapshot = g := rfl

theorem modeA_snapshot (t : Tables) (st c0 : Byte) (k : Interp) :
    (modeA t st c0 k).ses.snapshot = k.ses.snapshot := by
  rw [modeA_ses, branch_snapshot, clearPrevious_snapshot]

/-- Step 1 decides nothing about the mode, so a switch is judged by the session before the packet (R153, R161). -/
theorem modeA_currentMode_of_switches {t : Tables} {st c0 : Byte} {k : Interp} (h : SwitchesMode t st c0 k.ses) :
    (modeA t st c0 k).ses.currentMode = .a :=
  (branch_currentMode t st c0 (clearPrevious st k)).1 ((switchesMode_clearPrevious ..).mpr h)

theorem modeA_currentMode_of_not_switches {t : Tables} {st c0 : Byte} {k : Interp} (h : ¬ SwitchesMode t st c0 k.ses) :
    (modeA t st c0 k).ses.currentMode = k.ses.currentMode := by
  rw [modeA_ses, (branch_currentMode t st c0 (clearPrevious st k)).2 (mt (switchesMode_clearPrevious ..).mp h),
    clearPrevious_currentMode]

/-! ### What an operation does -/

/-- What POLL does, by the packet it takes (43_host_ops.md R201): the mailbox is drained, and only then the packet handled. -/
theorem exec_poll_cases {s t : State} (h : exec .poll s = .next t) :
    (s.mbx.ready = true ∧ t = handleAndReport s.mbx.slot (s.setMbx { s.mbx with ready := false })) ∨
    (s.mbx.ready = false ∧ t = s.setOutput (.changed false)) := by
  change execPoll s = .next t at h
  cases hr : s.mbx.ready with
  | true => exact .inl ⟨rfl, (next_inj (execPoll_ready hr ▸ h)).symm⟩
  | false => exact .inr ⟨rfl, (next_inj (execPoll_empty hr ▸ h)).symm⟩

/-- No operation writes the refusal mark, the parameters or the words offered (10_state.md R39, R40). -/
theorem exec_frame {s t : State} {i : Instr} (h : exec i s = .next t) :
    t.refused = s.refused ∧ t.cfg = s.cfg ∧ t.pending = s.pending := by
  cases i with
  | poll => obtain ⟨-, rfl⟩ | ⟨-, rfl⟩ := exec_poll_cases h <;> exact ⟨rfl, rfl, rfl⟩
  | edge | readRow | init | handleA | handleB => cases next_inj h; exact ⟨rfl, rfl, rfl⟩

/-- The one inversion lemma for what the interpreter owns: INIT resets it, HANDLE runs on the packet the operation hands over,
and without a packet it stays (R37, R150, R200). -/
theorem exec_interp_cases {s t : State} {i : Instr} (h : exec i s = .next t) :
    (i = .init ∧ handledPacket i s = none ∧ t.interp = ⟨Session.reset, Matrix.reset⟩) ∨
    (i ≠ .init ∧ ∃ p, handledPacket i s = some p ∧ t.interp = handle s.cfg.tables p s.interp) ∨
    (i ≠ .init ∧ handledPacket i s = none ∧ t.interp = s.interp) := by
  cases i with
  | init => cases next_inj h; exact .inl ⟨rfl, rfl, rfl⟩
  | poll =>
    obtain ⟨ready, rfl⟩ | ⟨empty, rfl⟩ := exec_poll_cases h
    · exact .inr (.inl ⟨nofun, s.mbx.slot, if_pos ready, rfl⟩)
    · exact .inr (.inr ⟨nofun, if_neg (by simp [empty]), rfl⟩)
  | handleA | handleB => cases next_inj h; exact .inr (.inl ⟨nofun, _, rfl, rfl⟩)
  | edge | readRow => cases next_inj h; exact .inr (.inr ⟨nofun, rfl, rfl⟩)

/-! ### The statements -/

/-- Settles O12: an idle step keeps the mark, an operation does not write it, and a refused word sets it. -/
theorem refusedMarkIsSetExactlyByARefusedWord : Obligations.RefusedMarkIsSetExactlyByARefusedWord := by
  intro s t h
  obtain ⟨idle, e⟩ | ⟨o, rest, i, offered, decoded, e⟩ | ⟨o, rest, e', offered, refused, e⟩ := step_cases s <;> rw [e] at h
  · cases next_inj h
    simp [idle]
  · obtain ⟨mark, -, -⟩ := exec_frame h
    simp [mark, offered, decoded]
  · cases next_inj h
    simp [offered, refused]

/-- Settles O13: in each of the three ways a step can go the parameters stay. -/
theorem noStepWritesTheParameters : Obligations.NoStepWritesTheParameters := by
  intro s t h
  obtain ⟨-, e⟩ | ⟨o, rest, i, -, -, e⟩ | ⟨o, rest, e', -, -, e⟩ := step_cases s <;> rw [e] at h
  · rw [← next_inj h]
  · obtain ⟨-, params, -⟩ := exec_frame h
    exact params
  · rw [← next_inj h]; rfl

/-- Settles O52: INIT, a packet of either mode, or no packet; a Mode A packet is judged by whether it switches. -/
theorem currentModeIsWrittenOnlyAsStated : Obligations.CurrentModeIsWrittenOnlyAsStated := by
  intro s t i h
  have mode : t.ses.currentMode = t.interp.ses.currentMode := rfl
  obtain ⟨rfl, noPacket, e⟩ | ⟨notInit, p, handled, e⟩ | ⟨notInit, noPacket, e⟩ := exec_interp_cases h <;> rw [mode, e]
  · simp [noPacket, Session.reset]
  · cases hp : p.isModeB with
    | true => simp [handled, hp, handle_of_isModeB _ hp, notInit]
    | false =>
      rw [handle_of_not_isModeB _ hp]
      by_cases sw : SwitchesMode s.cfg.tables p.status p.ascii s.ses
      · simp only [modeA_currentMode_of_switches (k := s.interp) sw]
        simp [handled, hp, sw]
      · simp only [modeA_currentMode_of_not_switches (k := s.interp) sw]
        simp [handled, hp, sw, notInit]
  · simp [noPacket, notInit]

/-- Settles O53: the snapshot after each of the ways an operation can treat the interpreter. -/
theorem snapshotIsTheLastModeBPacketHandled : Obligations.SnapshotIsTheLastModeBPacketHandled := by
  intro s t i h
  have snapshot : t.ses.snapshot = t.interp.ses.snapshot := rfl
  obtain ⟨rfl, noPacket, e⟩ | ⟨notInit, p, handled, e⟩ | ⟨notInit, noPacket, e⟩ := exec_interp_cases h <;> rw [snapshot, e]
  · simp [noPacket, Session.reset]
  · cases hp : p.isModeB with
    | true => simp [handled, hp, handle_of_isModeB _ hp, notInit]
    | false =>
      rw [handle_of_not_isModeB _ hp, modeA_snapshot]
      simp [handled, hp, notInit]
  · simp [noPacket, notInit]

end Sys2Proof.Machine
end

section
/-! Proofs about the two word forms: the 40-bit operation word (30_encoding.md R70-R79), by the dispatch on its opcode and the
fields of each format, and the 41-bit packet word (R90), by its four fields. -/

namespace Sys2Proof

/-! ### The opcode selects the format's decoder (R71) -/

theorem decode_eq_decodeEdge {w : OpWord} (h : opcodeOf w = 0x1) : decode w = decodeEdge w := by simp [decode, h]

theorem decode_eq_decodePoll {w : OpWord} (h : opcodeOf w = 0x2) : decode w = decodePoll w := by simp [decode, h]

theorem decode_eq_decodeReadRow {w : OpWord} (h : opcodeOf w = 0x3) : decode w = decodeReadRow w := by simp [decode, h]

theorem decode_eq_decodeInit {w : OpWord} (h : opcodeOf w = 0x4) : decode w = decodeInit w := by simp [decode, h]

theorem decode_eq_decodeHandleA {w : OpWord} (h : opcodeOf w = 0x5) : decode w = decodeHandleA w := by simp [decode, h]

theorem decode_eq_decodeHandleB {w : OpWord} (h : opcodeOf w = 0x6) : decode w = decodeHandleB w := by simp [decode, h]

/-! ### Each format's decoder reads its operands back -/

theorem polarityOfBit_bitOfPolarity (pol : Polarity) : polarityOfBit (bitOfPolarity pol) = pol := by
  cases pol <;> rfl

theorem decodeEdge_encode (pol : Polarity) (t : Ticks) : decodeEdge (encode (.edge pol t)) = .ok (.edge pol t) := by
  have fixed : (encode (.edge pol t)).extractLsb' 33 3 = 0 := by
    unfold encode
    rw [extract_append_high _ _ _ _ (by decide), extract_append_high _ _ _ _ (by decide)]
    rfl
  have r : (encode (.edge pol t)).getLsbD 32 = bitOfPolarity pol := by
    simp only [encode, BitVec.getLsbD_append]
    simp
  have ticks : (encode (.edge pol t)).extractLsb' 0 32 = t := BitVec.extractLsb'_append_eq_right
  rw [decodeEdge, if_pos fixed, r, polarityOfBit_bitOfPolarity, ticks]

theorem decodeReadRow_encode (i : BitVec 5) : decodeReadRow (encode (.readRow i)) = .ok (.readRow i) := by
  have fixed : (encode (.readRow i)).extractLsb' 5 31 = 0 := by
    unfold encode
    rw [extract_append_high _ _ _ _ (by decide)]
    rfl
  have index : (encode (.readRow i)).extractLsb' 0 5 = i := BitVec.extractLsb'_append_eq_right
  rw [decodeReadRow, if_pos fixed, index]

theorem decodeHandleA_encode (st a : Byte) : decodeHandleA (encode (.handleA st a)) = .ok (.handleA st a) := by
  have fixed : (encode (.handleA st a)).extractLsb' 16 20 = 0 := by
    unfold encode
    rw [extract_append_high _ _ _ _ (by decide), extract_append_high _ _ _ _ (by decide)]
    rfl
  have status : (encode (.handleA st a)).extractLsb' 8 8 = st := by
    unfold encode
    rw [extract_append_high _ _ _ _ (by decide)]
    exact BitVec.extractLsb'_append_eq_right
  have ascii : (encode (.handleA st a)).extractLsb' 0 8 = a := BitVec.extractLsb'_append_eq_right
  rw [decodeHandleA, if_pos fixed, status, ascii]

theorem decodeHandleB_encode (g : GameKeys) : decodeHandleB (encode (.handleB g)) = .ok (.handleB g) := by
  have fixed : (encode (.handleB g)).extractLsb' 24 12 = 0 := by
    unfold encode
    rw [extract_append_high _ _ _ _ (by decide)]
    rfl
  have keys : (encode (.handleB g)).extractLsb' 0 24 = g := BitVec.extractLsb'_append_eq_right
  rw [decodeHandleB, if_pos fixed, keys]

/-- Settles O2: an operation's word has the opcode of its format, whose decoder reads the operands back; POLL and INIT are one word
each. -/
theorem decodeOfEncodeIsTheInstruction : Obligations.DecodeOfEncodeIsTheInstruction := by
  intro i
  cases i with
  | edge pol t => rw [decode_eq_decodeEdge (opcodeOf_edge pol t), decodeEdge_encode]
  | poll => rw [decode_eq_decodePoll opcodeOf_poll]; decide
  | readRow i => rw [decode_eq_decodeReadRow (opcodeOf_readRow i), decodeReadRow_encode]
  | init => rw [decode_eq_decodeInit opcodeOf_init]; decide
  | handleA st a => rw [decode_eq_decodeHandleA (opcodeOf_handleA st a), decodeHandleA_encode]
  | handleB g => rw [decode_eq_decodeHandleB (opcodeOf_handleB g), decodeHandleB_encode]

end Sys2Proof

namespace Sys2Proof.Machine

/-! ### The fields of the packet word (R90) -/

/-- One bit of a word, as a word of its own, is the field of length 1 there. -/
theorem ofBool_getLsbD {n : Nat} (w : BitVec n) (i : Nat) : BitVec.ofBool (w.getLsbD i) = w.extractLsb' i 1 := by
  have bit : ∀ b : BitVec 1, BitVec.ofBool (b == 1#1) = b := by decide
  rw [BitVec.getLsbD_eq_extractLsb', bit]

theorem toWord_isModeB (p : Packet) : p.toWord.getLsbD 40 = p.isModeB := by
  simp only [Packet.toWord, BitVec.getLsbD_append]
  simp

theorem toWord_status (p : Packet) : p.toWord.extractLsb' 32 8 = p.status := by
  unfold Packet.toWord
  rw [extract_append_high _ _ _ _ (by decide), extract_append_high _ _ _ _ (by decide)]
  exact BitVec.extractLsb'_append_eq_right

theorem toWord_ascii (p : Packet) : p.toWord.extractLsb' 24 8 = p.ascii := by
  unfold Packet.toWord
  rw [extract_append_high _ _ _ _ (by decide)]
  exact BitVec.extractLsb'_append_eq_right

theorem toWord_gameKeys (p : Packet) : p.toWord.extractLsb' 0 24 = p.gameKeys := BitVec.extractLsb'_append_eq_right

theorem ofWord_toWord (p : Packet) : Packet.ofWord p.toWord = p := by
  rw [Packet.ofWord, toWord_isModeB, toWord_status, toWord_ascii, toWord_gameKeys]

/-- The four fields adjoin, from bit 40 down to bit 0, so joined they are the word. -/
theorem toWord_ofWord (w : PacketWord) : (Packet.ofWord w).toWord = w := by
  change BitVec.ofBool (w.getLsbD 40) ++ w.extractLsb' 32 8 ++ w.extractLsb' 24 8 ++ w.extractLsb' 0 24 = w
  rw [ofBool_getLsbD, BitVec.extractLsb'_append_extractLsb'_eq_extractLsb' (by decide),
    BitVec.extractLsb'_append_extractLsb'_eq_extractLsb' (by decide), BitVec.extractLsb'_append_extractLsb'_eq_extractLsb' (by decide)]
  exact BitVec.extractLsb'_eq_self

/-- Settles O7: the fields and the round trips are lemmas above; a full accumulator's packet has its fields by definition. -/
theorem packetWordHoldsThePacket : Obligations.PacketWordHoldsThePacket :=
  ⟨fun p => ⟨toWord_isModeB p, toWord_status p, toWord_ascii p, toWord_gameKeys p, ofWord_toWord p⟩, toWord_ofWord,
    fun _ => rfl, fun _ => rfl⟩

end Sys2Proof.Machine
end

section
/-! Proofs about one EDGE (40_decoder.md R101-R106, R109). Each branch of the two receiving transitions has its equation here, and
EDGE one equation for a transition that answers no packet and one for a transition that completes a frame; a statement about EDGE is
then the transition that runs, with the branch it takes. -/

namespace Sys2Proof.Machine

open Config

/-! ### The branches of a high sample (R103, R104) -/

/-- A shifted-in 0 leaves the vacated bit clear (R104). -/
theorem shiftIn_false (d : Decoder) : shiftIn false d = { d with acc := d.acc <<< 1, bitcnt := d.bitcnt + 1 } := by
  simp [shiftIn]

section
variable {w : Windows} {m : Mode} {t : Ticks} {d : Decoder}

theorem highSample_header (header : d.hdrHiOk = true ∧ inWindow t (hdrHigh w m) = true) :
    highSample w m t d = { d with hdrHiOk := false } := by
  rw [highSample, if_pos (by simpa using header)]

theorem highSample_zero (header : ¬ (d.hdrHiOk = true ∧ inWindow t (hdrHigh w m) = true))
    (zero : d.bitcnt < frameLen m ∧ inWindow t (bit0High w m) = true) :
    highSample w m t d = { shiftIn false d with hdrHiOk := false } := by
  rw [highSample, if_neg (by simpa using header), if_pos (by simpa using zero)]

theorem highSample_one (header : ¬ (d.hdrHiOk = true ∧ inWindow t (hdrHigh w m) = true))
    (zero : ¬ (d.bitcnt < frameLen m ∧ inWindow t (bit0High w m) = true))
    (one : d.bitcnt < frameLen m ∧ inWindow t (bit1High w m) = true) :
    highSample w m t d = { shiftIn true d with hdrHiOk := false } := by
  rw [highSample, if_neg (by simpa using header), if_neg (by simpa using zero), if_pos (by simpa using one)]

theorem highSample_abort (header : ¬ (d.hdrHiOk = true ∧ inWindow t (hdrHigh w m) = true))
    (zero : ¬ (d.bitcnt < frameLen m ∧ inWindow t (bit0High w m) = true))
    (one : ¬ (d.bitcnt < frameLen m ∧ inWindow t (bit1High w m) = true)) :
    highSample w m t d = abort d := by
  rw [highSample, if_neg (by simpa using header), if_neg (by simpa using zero), if_neg (by simpa using one)]

/-! ### The branches of a low sample (R105) -/

theorem lowSample_abort (invalid : inWindow t w.bitLow = false) : lowSample w m t d = (abort d, none) := by
  rw [lowSample, if_neg (by simp [invalid])]

theorem lowSample_continue (valid : inWindow t w.bitLow = true) (notFull : d.bitcnt ≠ frameLen m) :
    lowSample w m t d = (d, none) := by
  rw [lowSample, if_pos valid, if_neg notFull]

theorem lowSample_complete (valid : inWindow t w.bitLow = true) (full : d.bitcnt = frameLen m) :
    lowSample w m t d = (abort d, some (assemble m d.acc)) := by
  rw [lowSample, if_pos valid, if_pos full]

end

/-! ### EDGE by the answer of its transition -/

section
variable {s : State} {pol : Polarity} {t : Ticks} {d : Decoder}

theorem exec_edge_of_no_packet (h : onEdge s.cfg.windows pol t s.dec = (d, none)) :
    exec (.edge pol t) s = .next { s with dec := d, output := .nothing } := by
  change execEdge pol t s = _
  rw [execEdge_eq, h, publishIfAny_none]

/-- The packet of a completed frame overwrites the mailbox, full or empty (R105, 41_mailbox.md R140). -/
theorem exec_edge_of_packet {p : Packet} (h : onEdge s.cfg.windows pol t s.dec = (d, some p)) :
    exec (.edge pol t) s = .next { s with dec := d, mbx := ⟨true, p⟩, output := .nothing } := by
  change execEdge pol t s = _
  rw [execEdge_eq, h]
  rfl

end

/-! ### The statements -/

/-- Settles O19: the transition is a high sample, and each clause is one of its branches. -/
theorem edgeHighSampleIsHeaderHighOrABitOrAborts : Obligations.EdgeHighSampleIsHeaderHighOrABitOrAborts := by
  intro s m t phase armed header zero one
  have edge {d : Decoder} (branch : highSample s.cfg.windows m t { s.dec with armed := .rising } = d) :
      exec (.edge .falling t) s = .next { s with dec := d, output := .nothing } :=
    exec_edge_of_no_packet (branch ▸ onEdge_highSample _ t armed phase)
  refine ⟨fun isHeader => ?_, fun notHeader isZero => ?_, fun notHeader notZero isOne => ?_, fun notHeader notZero notOne => ?_⟩
  · exact edge (highSample_header isHeader)
  · rw [edge (highSample_zero notHeader isZero), shiftIn_false]
  · exact edge (highSample_one notHeader notZero isOne)
  · exact edge (highSample_abort notHeader notZero notOne)

/-- Settles O20: the transition is a low sample; the packet of a completed frame is the one its mode assembles. -/
theorem edgeLowSampleContinuesPublishesOrAborts : Obligations.EdgeLowSampleContinuesPublishesOrAborts := by
  intro s m t phase armed
  have low := onEdge_lowSample s.cfg.windows t armed phase
  have complete (valid : inWindow t s.cfg.windows.bitLow = true) (full : s.dec.bitcnt = frameLen m) :
      exec (.edge .rising t) s =
        .next { s with dec := Decoder.reset, mbx := ⟨true, assemble m s.dec.acc⟩, output := .nothing } :=
    exec_edge_of_packet (low.trans (lowSample_complete valid full))
  refine ⟨fun invalid => ?_, fun valid notFull => ?_, fun valid full modeA => ?_, fun valid full modeB => ?_⟩
  · exact exec_edge_of_no_packet (low.trans (lowSample_abort invalid))
  · exact exec_edge_of_no_packet (low.trans (lowSample_continue valid notFull))
  · subst modeA
    exact complete valid full
  · subst modeB
    exact complete valid full

/-- Settles O17: the transition is IdleFall, which answers no packet. -/
theorem edgeFallingInIdleOnlyArmsTheRisingEdge : Obligations.EdgeFallingInIdleOnlyArmsTheRisingEdge :=
  fun s t phase armed => exec_edge_of_no_packet (onEdge_idleFall s.cfg.windows t armed phase)

/-- Settles O18: the transition is HeaderLow, which is by definition the statement's chain of cases, Mode A first. -/
theorem edgeRisingInIdleClassifiesTheHeader : Obligations.EdgeRisingInIdleClassifiesTheHeader :=
  fun s t phase armed => exec_edge_of_no_packet (onEdge_headerLow s.cfg.windows t armed phase)

/-- Settles O21: the decoder and the mailbox after EDGE are functions of decoder, mailbox and windows, and nothing else is
written. -/
theorem edgeNeitherReadsNorWritesTheInterpreter : Obligations.EdgeNeitherReadsNorWritesTheInterpreter := by
  intro s u pol t
  refine ⟨_, _, execEdge_eq pol t s, execEdge_eq pol t u, rfl, rfl, rfl, rfl, rfl, rfl, fun dec mbx cfg => ?_⟩
  rw [dec, mbx, cfg]
  exact ⟨rfl, rfl⟩

end Sys2Proof.Machine
end

section
/-! Proofs about HANDLE (42_interpreter.md R151-R165). Steps 2 to 4 of a Mode A packet end in one of three ways: they register a
code, they register an extended bit, or they register nothing. What HANDLE_A leaves is said once for each ending; a statement
about a path is then the path's ending. -/

namespace Sys2Proof.Machine

open Config

/-! ### HANDLE_A and HANDLE_B as operations (R203, R204) -/

theorem exec_handleA (st c0 : Byte) (s : State) : exec (.handleA st c0) s = .next (handleAndReport (packetA st c0) s) := rfl

theorem exec_handleB (g : GameKeys) (s : State) : exec (.handleB g) s = .next (handleAndReport (packetB g) s) := rfl

theorem handleAndReport_onlyInterpChanged (p : Packet) (s : State) : onlyInterpChanged s (handleAndReport p s) :=
  ⟨rfl, rfl, rfl, rfl, rfl⟩

/-- The value `changed` compares cells (43_host_ops.md R201). -/
theorem matrixChanged_iff (M N : Matrix) : matrixChanged M N = true ↔ ∃ r c, cell N r c ≠ cell M r c := by
  rw [matrixChanged, decide_eq_true_iff]
  constructor
  · intro changed
    by_contra same
    push Not at same
    exact changed (matrix_ext same)
  · rintro ⟨r, c, differs⟩ same
    exact differs (by rw [same])

/-! ### Mode B's two row writes (R151, 10_state.md R35) -/

theorem cell_modeB_row17 (g : GameKeys) (k : Interp) (c : Fin 16) : cell (modeB g k).M 17 c = g.getLsbD c := by
  simp [modeB, cell_writeRow]

theorem cell_modeB_row18 (g : GameKeys) (k : Interp) (c : Fin 16) :
    cell (modeB g k).M 18 c = (decide (c.val < 8) && g.getLsbD (16 + c)) := by
  simp [modeB, cell_writeRow]

theorem cell_modeB_other {r : Fin 19} (ne17 : r ≠ 17) (ne18 : r ≠ 18) (g : GameKeys) (k : Interp) (c : Fin 16) :
    cell (modeB g k).M r c = cell k.M r c := by
  simp [modeB, cell_writeRow, ne17, ne18]

/-- Settles O38: the two rows written, every other row, and the comparison of the cells. -/
theorem handleBWritesTheGameKeyRows : Obligations.HandleBWritesTheGameKeyRows := fun s g =>
  ⟨_, _, exec_handleB g s, handleAndReport_onlyInterpChanged _ s, rfl, cell_modeB_row17 g s.interp, cell_modeB_row18 g s.interp,
    fun _ c ne17 ne18 => cell_modeB_other ne17 ne18 g s.interp c, rfl, matrixChanged_iff ..⟩

/-! ### Step 1 (R153) -/

theorem clearPrevious_ses (st : Byte) (k : Interp) :
    (clearPrevious st k).ses =
      ⟨k.ses.currentMode, k.ses.snapshot, k.ses.lastAscii, isRepeat st && k.ses.extActive⟩ := by
  rw [← clearPrevious_extActive, ← clearPrevious_currentMode st, ← clearPrevious_snapshot st, ← clearPrevious_lastAscii st]

/-- An accepted switch after step 1 (R157, R161). -/
theorem switchIf_clearPrevious_ses (st : Byte) (k : Interp) :
    switchIf true (clearPrevious st k).ses = ⟨.a, k.ses.snapshot, k.ses.lastAscii, isRepeat st && k.ses.extActive⟩ := by
  rw [clearPrevious_ses]
  rfl

theorem cell_clearPrevious_iff (st : Byte) (k : Interp) (r : Fin 19) (c : Fin 16) :
    cell (clearPrevious st k).M r c = true ↔ cell k.M r c = true ∧ ¬ clearedCell st k.ses r c := by
  rw [cell_clearPrevious, clearedCell, isCellOf]
  cases isRepeat st <;> cases k.ses.extActive <;> simp [imp_iff_not_or]

/-- Settles O46: a repeat keeps everything, a genuine new key clears exactly the held key path. -/
theorem clearPreviousClearsTheHeldKeyPath : Obligations.ClearPreviousClearsTheHeldKeyPath := by
  refine ⟨fun st k => ⟨fun rep => clearPrevious_of_repeat rep k, fun genuine => ⟨?_, fun r c => ?_⟩⟩,
    fun s st a => ⟨_, exec_handleA st a s, rfl⟩⟩
  · simp [clearPrevious_ses, genuine]
  · simp [cell_clearPrevious_iff, clearedCell, genuine]

/-! ### Step 5 (R165) -/

theorem cell_handleA_modifier (s : State) (st c0 : Byte) {c : Fin 16} (modifier : c.val < 5) :
    cell (handleAndReport (packetA st c0) s).M 16 c = !st.getLsbD c :=
  (cell_modeA s.cfg.tables st c0 s.interp 16 c).trans (if_pos ⟨rfl, modifier⟩)

/-- Settles O47: step 5 runs last, whatever branch ran, and each modifier is the negated status bit. -/
theorem handleAAssignsTheModifierCells : Obligations.HandleAAssignsTheModifierCells := by
  refine ⟨fun s st a => ⟨_, exec_handleA st a s, ?_⟩, fun st M r c other => ?_⟩
  · have assigned {c : Fin 16} (modifier : c.val < 5) := cell_handleA_modifier s st a modifier
    exact ⟨assigned (by decide), assigned (by decide), assigned (by decide), assigned (by decide), assigned (by decide)⟩
  · exact (cell_setMods M st r c).trans (if_neg other)

/-! ### The three endings of steps 2 to 4 -/

section
variable {s : State} {st c0 : Byte} {k : Interp} {m : Mode}

/-- HANDLE_A when steps 2 to 4 end in k: they set the cells `set` and clear none. -/
theorem cellsAfterModeA_of_branch {set : Fin 19 → Fin 16 → Prop}
    (ending : branch s.cfg.tables st c0 (clearPrevious st s.interp) = k)
    (sets : ∀ r c, cell k.M r c = true ↔ set r c ∨ cell (clearPrevious st s.interp).M r c = true) :
    cellsAfterModeA st s (handleAndReport (packetA st c0) s) set := by
  intro r c
  change cell (modeA s.cfg.tables st c0 s.interp).M r c = true ↔ _
  rw [cell_modeA, ending]
  split
  · simp
  · rw [sets, cell_clearPrevious_iff]
    rfl

theorem handleA_registerAscii {f : Byte}
    (ending : branch s.cfg.tables st c0 (clearPrevious st s.interp) = registerAscii f k)
    (cells : k.M = (clearPrevious st s.interp).M)
    (ses : k.ses = ⟨m, s.ses.snapshot, s.ses.lastAscii, isRepeat st && s.ses.extActive⟩) :
    cellsAfterModeA st s (handleAndReport (packetA st c0) s) (isCellOf f) ∧
      (handleAndReport (packetA st c0) s).ses = ⟨m, s.ses.snapshot, f, isRepeat st && s.ses.extActive⟩ := by
  refine ⟨cellsAfterModeA_of_branch ending fun r c => cells ▸ cell_setAscii_iff k.M f r c, ?_⟩
  change (branch s.cfg.tables st c0 (clearPrevious st s.interp)).ses = _
  rw [ending, registerAscii_ses, ses]

theorem handleA_registerExt {e : Fin 10}
    (ending : branch s.cfg.tables st c0 (clearPrevious st s.interp) = registerExt e k)
    (cells : k.M = (clearPrevious st s.interp).M)
    (ses : k.ses = ⟨m, s.ses.snapshot, s.ses.lastAscii, isRepeat st && s.ses.extActive⟩) :
    cellsAfterModeA st s (handleAndReport (packetA st c0) s) (isExtCell e) ∧
      (handleAndReport (packetA st c0) s).ses = ⟨m, s.ses.snapshot, s.ses.lastAscii, true⟩ := by
  refine ⟨cellsAfterModeA_of_branch ending fun r c => cells ▸ cell_setExt_iff k.M e r c, ?_⟩
  change (branch s.cfg.tables st c0 (clearPrevious st s.interp)).ses = _
  rw [ending, registerExt_ses, ses]

theorem handleA_registerNothing
    (ending : branch s.cfg.tables st c0 (clearPrevious st s.interp) = clearPrevious st s.interp) :
    cellsAfterModeA st s (handleAndReport (packetA st c0) s) noCell ∧
      (handleAndReport (packetA st c0) s).ses =
        ⟨s.ses.currentMode, s.ses.snapshot, s.ses.lastAscii, isRepeat st && s.ses.extActive⟩ := by
  refine ⟨cellsAfterModeA_of_branch ending fun r c => by simp [noCell], ?_⟩
  change (branch s.cfg.tables st c0 (clearPrevious st s.interp)).ses = _
  rw [ending]
  exact clearPrevious_ses st s.interp

end

/-! ### The ending of each path -/

section
variable {t : Tables} {st c0 : Byte} {k : Interp}

theorem branch_special {e : Fin 10} (ten : tenkey st = true) (image : tenkeyMap t c0 = none) (other : c0 ≠ t.numpadEnter)
    (bit : extMap t c0 = some e) : branch t st c0 k = registerExt e k := by
  simp [branch, tenKey, ten, image, other, bit]

theorem branch_tenkeyOther (ten : tenkey st = true) (image : tenkeyMap t c0 = none) (other : c0 ≠ t.numpadEnter)
    (bit : extMap t c0 = none) : branch t st c0 k = registerAscii c0 k := by
  simp [branch, tenKey, ten, image, other, bit]

theorem branch_numpadEnter (path : TakesNumpadEnter t st c0) : branch t st c0 k = numpadEnter t st c0 k := by
  obtain ⟨ten, image, enter⟩ := path
  simp [branch, tenKey, ten, image, if_pos enter]

theorem branch_general (path : TakesGeneralPath st c0) : branch t st c0 k = general t st c0 k := by
  have noCollision := (takesGeneralPath_iff path.1).mp path
  rw [← ctrlCollision_test path.1] at noCollision
  rw [branch, path.1, if_neg nofun, if_neg noCollision]

theorem numpadEnter_accepted {e : Fin 10} (bit : extMap t c0 = some e) (accepted : SwitchAccepted t st c0 k.ses) :
    numpadEnter t st c0 k = registerExt e { k with ses := switchIf true k.ses } := by
  simp [numpadEnter, bit, (detect_iff ..).mpr accepted]

theorem numpadEnter_suppressed (rejected : ¬ SwitchAccepted t st c0 k.ses) (held : HeldInModeB t c0 k.ses) :
    numpadEnter t st c0 k = k := by
  rw [← detect_iff, Bool.not_eq_true] at rejected
  simp [numpadEnter, rejected, (suppress_iff ..).mpr held]

theorem numpadEnter_kept {e : Fin 10} (bit : extMap t c0 = some e) (rejected : ¬ SwitchAccepted t st c0 k.ses)
    (notHeld : ¬ HeldInModeB t c0 k.ses) : numpadEnter t st c0 k = registerExt e k := by
  rw [← detect_iff, Bool.not_eq_true] at rejected
  rw [← suppress_iff] at notHeld
  simp [numpadEnter, bit, rejected, notHeld]

theorem general_suppressed (rejected : ¬ SwitchAccepted t st (tentative t st c0 k.ses) k.ses)
    (held : HeldInModeB t (tentative t st c0 k.ses) k.ses) : general t st c0 k = k := by
  rw [← detect_iff, Bool.not_eq_true] at rejected
  rw [general_rejected rejected, if_pos ((suppress_iff ..).mpr held)]

theorem general_kept (rejected : ¬ SwitchAccepted t st (tentative t st c0 k.ses) k.ses)
    (notHeld : ¬ HeldInModeB t (tentative t st c0 k.ses) k.ses) :
    general t st c0 k = registerAscii (tentative t st c0 k.ses) k := by
  rw [← detect_iff, Bool.not_eq_true] at rejected
  rw [general_rejected rejected, if_neg (mt (suppress_iff ..).mp notHeld)]

/-- The tentative code in the spec's own terms (R160). -/
theorem tentative_eq (t : Tables) (st c0 : Byte) (ses : Session) :
    tentative t st c0 ses = if ses.currentMode = .b ∧ kana st = true ∧ 0xA0 ≤ c0 ∧ c0 ≤ 0xDF
      then kanaMap t (((c0 - 0xA0) >>> 4).setWidth 2) (c0.extractLsb' 0 4) else c0 := by
  simp [tentative, inKanaBlock, kanaRemap]

end

/-! ### The statements about the paths -/

/-- Settles O41: the path ends by registering the extended bit. -/
theorem handleATenKeySpecialCodeSetsItsExtendedBit : Obligations.HandleATenKeySpecialCodeSetsItsExtendedBit :=
  fun s st c0 _ ten image other bit => ⟨_, exec_handleA st c0 s, handleAndReport_onlyInterpChanged _ s,
    handleA_registerExt (branch_special ten image other bit) rfl (clearPrevious_ses st s.interp)⟩

/-- Settles O43: the path ends by registering the code itself. -/
theorem handleATenKeyOtherCodeRegistersItself : Obligations.HandleATenKeyOtherCodeRegistersItself :=
  fun s st c0 ten image other bit => ⟨_, exec_handleA st c0 s, handleAndReport_onlyInterpChanged _ s,
    handleA_registerAscii (branch_tenkeyOther ten image other bit) rfl (clearPrevious_ses st s.interp)⟩

/-- Settles O42: numpad-enter ends by registering its extended bit, except when it is suppressed. -/
theorem handleANumpadEnterArbitrates : Obligations.HandleANumpadEnterArbitrates := by
  intro s st c0 e ten image enter bit
  have path := branch_numpadEnter (k := clearPrevious st s.interp) ⟨ten, image, enter⟩
  have switch := switchAccepted_clearPrevious s.cfg.tables st st c0 s.interp
  have hold := heldInModeB_clearPrevious s.cfg.tables st c0 s.interp
  refine ⟨_, exec_handleA st c0 s, handleAndReport_onlyInterpChanged _ s, fun accepted => ?_, fun rejected held => ?_,
    fun rejected notHeld => ?_⟩
  · exact handleA_registerExt (path.trans (numpadEnter_accepted bit (switch.mpr accepted))) rfl
      (switchIf_clearPrevious_ses st s.interp)
  · exact handleA_registerNothing (path.trans (numpadEnter_suppressed (mt switch.mp rejected) (hold.mpr held)))
  · exact handleA_registerExt (path.trans (numpadEnter_kept bit (mt switch.mp rejected) (mt hold.mp notHeld))) rfl
      (clearPrevious_ses st s.interp)

/-- Settles O45: the general path ends by registering the original code after a switch, and without one by registering the
tentative code, except when that is suppressed. -/
theorem handleAGeneralPathArbitrates : Obligations.HandleAGeneralPathArbitrates := by
  intro s st c0 code notTen noCollision isTentative
  have path := branch_general (t := s.cfg.tables) (k := clearPrevious st s.interp) ⟨notTen, noCollision⟩
  have switch := switchAccepted_clearPrevious s.cfg.tables st st code s.interp
  have hold := heldInModeB_clearPrevious s.cfg.tables st code s.interp
  obtain rfl : tentative s.cfg.tables st c0 (clearPrevious st s.interp).ses = code :=
    (tentative_clearPrevious ..).trans ((tentative_eq ..).trans isTentative.symm)
  refine ⟨_, exec_handleA st c0 s, handleAndReport_onlyInterpChanged _ s, fun accepted => ?_, fun rejected held => ?_,
    fun rejected notHeld => ?_⟩
  · exact handleA_registerAscii (path.trans (general_accepted ((detect_iff ..).mpr (switch.mpr accepted)))) rfl
      (switchIf_clearPrevious_ses st s.interp)
  · exact handleA_registerNothing (path.trans (general_suppressed (mt switch.mp rejected) (hold.mpr held)))
  · exact handleA_registerAscii (path.trans (general_kept (mt switch.mp rejected) (mt hold.mp notHeld))) rfl
      (clearPrevious_ses st s.interp)

end Sys2Proof.Machine
end

section
/-! Proofs that the decoder, which reads fields, accepts exactly the rows of the opcode table (30_encoding.md R71, R78), each for
its agent (43_host_ops.md R205): a word fits a row when it has the row's opcode and zeros between opcode and operands. -/

namespace Sys2Proof

open Laws.Format (row)

/-! ### A row's match and mask as fields of the word -/

/-- How many low bits of a row's words are operands (R72-R77). -/
def operandBits (r : Fin 6) : Nat := match r with
  | 0 => 33
  | 1 => 0
  | 2 => 5
  | 3 => 0
  | 4 => 16
  | 5 => 24

theorem operandBits_le : ∀ r, operandBits r ≤ 36 := by decide

theorem mask_of_row : ∀ r : Fin 6, formats[r].mask = BitVec.allOnes 40 <<< operandBits r := by decide

theorem pattern_of_row : ∀ r : Fin 6, formats[r].pattern = (BitVec.ofNat 4 (r.val + 1)).setWidth 40 <<< 36 := by decide

theorem getLsbD_and_highMask {n : Nat} (w : BitVec n) (lo i : Nat) :
    (w &&& (BitVec.allOnes n <<< lo)).getLsbD i = (decide (lo ≤ i) && w.getLsbD i) := by
  by_cases hi : i < n
  · by_cases h : lo ≤ i
    · simp [hi, h, Nat.not_lt.mpr h]
    · simp [h, Nat.lt_of_not_le h]
  · simp [BitVec.getLsbD_of_ge w i (Nat.le_of_not_lt hi)]

/-- From bit `lo` up a word is `x` at bit `top` and 0 below: the top field is `x` and the field between is 0. -/
theorem and_highMask_eq_iff {n m lo top : Nat} (w : BitVec n) (x : BitVec m) (hlo : lo ≤ top) (hn : top + m = n) :
    w &&& (BitVec.allOnes n <<< lo) = x.setWidth n <<< top ↔
      w.extractLsb' top m = x ∧ w.extractLsb' lo (top - lo) = 0 := by
  constructor
  · intro h
    have bit (i : Nat) := getLsbD_and_highMask w lo i
    rw [h] at bit
    refine ⟨BitVec.eq_of_getLsbD_eq fun i hi => ?_, BitVec.eq_of_getLsbD_eq fun i hi => ?_⟩
    · have := bit (top + i)
      grind
    · have := bit (lo + i)
      grind
  · rintro ⟨high, between⟩
    refine BitVec.eq_of_getLsbD_eq fun i hi => ?_
    rw [getLsbD_and_highMask]
    by_cases htop : top ≤ i
    · have := congrArg (·.getLsbD (i - top)) high
      grind
    · have := congrArg (·.getLsbD (i - lo)) between
      grind

/-- A row's fixed bits are its opcode and the zeros between opcode and operands. -/
theorem fits_row_iff (r : Fin 6) (w : OpWord) :
    formats[r].fits w = true ↔
      opcodeOf w = BitVec.ofNat 4 (r.val + 1) ∧ w.extractLsb' (operandBits r) (36 - operandBits r) = 0 := by
  rw [Format.fits, beq_iff_eq, mask_of_row, pattern_of_row]
  exact and_highMask_eq_iff w _ (operandBits_le r) rfl

/-! ### The decoder's answer and its row -/

/-- Every format's decoder has this form: the operands, if the fixed bits are 0. -/
theorem ok_of_guard {c : Prop} [Decidable c] {i j : Instr} {e : IllFormed}
    (h : (if c then Except.ok j else Except.error e) = .ok i) : c ∧ j = i := by
  split at h
  · exact ⟨‹c›, Except.ok.inj h⟩
  · cases h

theorem fits_row_of_decode {w : OpWord} {i : Instr} (h : decode w = .ok i) : formats[row i].fits w = true := by
  rw [fits_row_iff]
  unfold decode at h
  split_ifs at h with edge poll readRow init handleA handleB
  iterate 6 (obtain ⟨fixed, rfl⟩ := ok_of_guard h; exact ⟨‹_›, fixed⟩)

theorem decode_of_fits_row {w : OpWord} {r : Fin 6} (h : formats[r].fits w = true) : ∃ i, decode w = .ok i ∧ row i = r := by
  obtain ⟨opcode, fixed⟩ := (fits_row_iff r w).mp h
  match r with
  | 0 => exact ⟨_, (decode_eq_decodeEdge opcode).trans (if_pos fixed), rfl⟩
  | 1 => exact ⟨_, (decode_eq_decodePoll opcode).trans (if_pos fixed), rfl⟩
  | 2 => exact ⟨_, (decode_eq_decodeReadRow opcode).trans (if_pos fixed), rfl⟩
  | 3 => exact ⟨_, (decode_eq_decodeInit opcode).trans (if_pos fixed), rfl⟩
  | 4 => exact ⟨_, (decode_eq_decodeHandleA opcode).trans (if_pos fixed), rfl⟩
  | 5 => exact ⟨_, (decode_eq_decodeHandleB opcode).trans (if_pos fixed), rfl⟩

theorem agent_of_row (i : Instr) : formats[row i].agent = i.agent := by cases i <;> rfl

/-! ### The checks over the whole table -/

theorem any_formats_iff (p : Format → Bool) : formats.any p = true ↔ ∃ r : Fin 6, p formats[r] = true := by
  rw [List.any_eq_true]
  constructor
  · rintro ⟨f, mem, holds⟩
    obtain ⟨r, rfl⟩ := List.get_of_mem mem
    exact ⟨r, holds⟩
  · rintro ⟨r, holds⟩
    exact ⟨_, List.getElem_mem _, holds⟩

theorem decode_ok_iff_wordWellFormed (w : OpWord) : (∃ i, decode w = .ok i) ↔ wordWellFormed w = true := by
  rw [wordWellFormed, any_formats_iff]
  constructor
  · rintro ⟨i, decoded⟩
    exact ⟨row i, fits_row_of_decode decoded⟩
  · rintro ⟨r, fits⟩
    obtain ⟨i, decoded, -⟩ := decode_of_fits_row fits
    exact ⟨i, decoded⟩

theorem decodeOffer_ok_iff_wellFormed (o : Offer) : (∃ i, decodeOffer o = .ok i) ↔ o.wellFormed = true := by
  simp only [Offer.wellFormed, any_formats_iff, Bool.and_eq_true, beq_iff_eq, Machine.decodeOffer_ok]
  constructor
  · rintro ⟨i, decoded, agent⟩
    exact ⟨row i, fits_row_of_decode decoded, (agent_of_row i).trans agent⟩
  · rintro ⟨r, fits, agent⟩
    obtain ⟨i, decoded, rfl⟩ := decode_of_fits_row fits
    exact ⟨i, decoded, (agent_of_row i).symm.trans agent⟩

/-- Settles O5: what decodes fits its operation's row, and what fits a row decodes to an operation of that row. -/
theorem decoderAgreesWithTheOpcodeTable : Obligations.DecoderAgreesWithTheOpcodeTable :=
  fun o => ⟨decode_ok_iff_wordWellFormed o.word, decodeOffer_ok_iff_wellFormed o⟩

end Sys2Proof
end

section
/-! Proofs about the host operations (43_host_ops.md R200-R205): READ_ROW, INIT, POLL, and the dispatch of an offered word. -/

namespace Sys2Proof.Machine

/-! ### Dispatch (R205) -/

/-- Settles O8: the decoder accepts the word for the agent that offers it, so the step runs the operation. -/
theorem stepRunsTheDecodedInstruction : Obligations.StepRunsTheDecodedInstruction :=
  fun _ _ _ _ offered decoded agent => step_exec offered (decodeOffer_ok.mpr ⟨decoded, agent⟩)

/-! ### READ_ROW and INIT (R202, R200) -/

theorem exec_readRow (i : BitVec 5) (s : State) :
    exec (.readRow i) s = .next { s with output := .row (readRowValue s.M i) } := rfl

theorem readRowValue_row (M : Matrix) {i : BitVec 5} {r : Fin 19} (h : i.toNat = r.val) : readRowValue M i = M[r] := by
  simp [readRowValue, h]

/-- Settles O35: the value read is the row or 0, and the hardwired cells are bits of the rows they stand in. -/
theorem readRowReturnsTheRowAndWritesNothing : Obligations.ReadRowReturnsTheRowAndWritesNothing := by
  intro s i
  refine ⟨fun r row => ?_, fun outside => ?_, fun ⟨cell16, cells18⟩ => ⟨?_, ?_⟩⟩
  · rw [exec_readRow, readRowValue_row s.M row]
  · rw [exec_readRow, readRowValue_outside s.M i outside]
  · exact ⟨_, exec_readRow 16 s, cell16⟩
  · refine ⟨_, exec_readRow 18 s, fun k k8 => ?_⟩
    by_cases k16 : k < 16
    · exact cells18 ⟨k, k16⟩ k8
    · exact BitVec.getLsbD_of_ge _ k (Nat.le_of_not_lt k16)

/-- Settles O36: INIT writes the reset values themselves, of which the matrix holds no cell. -/
theorem initRestoresTheResetValues : Obligations.InitRestoresTheResetValues :=
  fun _ => ⟨_, rfl, rfl, rfl, rfl, cell_reset, rfl, rfl, rfl, rfl⟩

/-! ### The value returned, and POLL (R201) -/

theorem handleAndReport_reports (p : Packet) (s : State) :
    ∃ b, (handleAndReport p s).output = .changed b ∧
      (b = true ↔ ∃ r c, cell (handleAndReport p s).M r c ≠ cell s.M r c) :=
  ⟨_, rfl, matrixChanged_iff ..⟩

/-- Settles O34: each of the three operations hands its packet to HANDLE and reports, except a POLL of an empty mailbox, which
leaves the matrix and returns false. -/
theorem changedReportsADifferingCell : Obligations.ChangedReportsADifferingCell := by
  rintro s t i (rfl | ⟨st, a, rfl⟩ | ⟨g, rfl⟩) h
  · obtain ⟨-, rfl⟩ | ⟨-, rfl⟩ := exec_poll_cases h
    · exact handleAndReport_reports s.mbx.slot (s.setMbx _)
    · exact ⟨false, rfl, by simp⟩
  · cases next_inj h
    exact handleAndReport_reports (packetA st a) s
  · cases next_inj h
    exact handleAndReport_reports (packetB g) s

/-- A POLL with a packet waiting is, but for the drained mailbox, HANDLE of any packet that the interpreter treats as the slot's. -/
theorem exec_poll_of_handle {s : State} {p : Packet} (ready : s.mbx.ready = true)
    (alike : ∀ t k, handle t s.mbx.slot k = handle t p k) :
    exec .poll s = .next { handleAndReport p s with mbx := { s.mbx with ready := false } } := by
  change execPoll s = _
  rw [execPoll_ready ready, handleAndReport_eq, handleAndReport_eq, alike]
  rfl

/-- Settles O32: HANDLE reads of the slot only the fields of its mode, which are those of HANDLE_A's or HANDLE_B's packet. -/
theorem pollDrainsTheMailboxAndReportsTheChange : Obligations.PollDrainsTheMailboxAndReportsTheChange := by
  refine fun s => ⟨fun empty => execPoll_empty empty, fun ready => ?_⟩
  cases mode : s.mbx.slot.isModeB with
  | true => exact ⟨_, _, exec_handleB s.mbx.slot.gameKeys s,
      exec_poll_of_handle ready fun t k => handle_of_isModeB t mode k, matrixChanged_iff ..⟩
  | false => exact ⟨_, _, exec_handleA s.mbx.slot.status s.mbx.slot.ascii s,
      exec_poll_of_handle ready fun t k => handle_of_not_isModeB t mode k, matrixChanged_iff ..⟩

end Sys2Proof.Machine
end

section
/-! Proofs that lead a frame from the wire to the mailbox (40_decoder.md R102-R108) and its packet to the matrix (43_host_ops.md
R201). A conforming frame of either mode is followed edge by edge: the header, one pair of edges per bit, the completing low time. -/

namespace Sys2Proof.Machine

open Config

/-! ### Windows -/

theorem inWindow_iff {t : Ticks} {w : Window} : inWindow t w = true ↔ w.lo ≤ t ∧ t ≤ w.hi := by simp [inWindow]

/-- No tick lies in both of two disjoint windows (00_scope.md R8). -/
theorem not_inWindow_of_disjoint {v w : Window} {t : Ticks} (disjoint : v.disjoint w = true) (inw : inWindow t w = true) :
    inWindow t v = false := by
  rw [inWindow_iff] at inw
  rw [← Bool.not_eq_true, inWindow_iff]
  simp only [Window.disjoint, Bool.or_eq_true, decide_eq_true_iff] at disjoint
  bv_omega

/-- Header acceptance in either mode: the header-low windows are disjoint, so a Mode B header is not taken for Mode A (R102). -/
theorem headerLow_of_hdrLow {w : Windows} {m : Mode} {t : Ticks} (conforming : w.conforming = true)
    (header : inWindow t (hdrLow w m) = true) (d : Decoder) : headerLow w t d = acceptHeader m d := by
  cases m with
  | a => exact if_pos header
  | b =>
    have disjoint : w.aHdrLow.disjoint w.bHdrLow = true := by
      rw [Windows.conforming, Bool.and_eq_true] at conforming
      exact conforming.2
    rw [headerLow, not_inWindow_of_disjoint disjoint header, if_neg nofun]
    exact if_pos header

/-- A high time in a bit's window, where the bit windows are disjoint, shifts that bit in (R103, R104). -/
theorem highSample_bit {w : Windows} {m : Mode} {b : Bool} {t : Ticks} {d : Decoder}
    (disjoint : (bit0High w m).disjoint (bit1High w m) = true)
    (header : ¬ (d.hdrHiOk = true ∧ inWindow t (hdrHigh w m) = true)) (room : d.bitcnt < frameLen m)
    (bit : inWindow t (bitHigh w m b) = true) : highSample w m t d = { shiftIn b d with hdrHiOk := false } := by
  cases b with
  | false => exact highSample_zero header ⟨room, bit⟩
  | true =>
    have notZero := not_inWindow_of_disjoint disjoint bit
    exact highSample_one header (by simp [notZero]) ⟨room, bit⟩

/-! ### The accumulator's value (R104, R106) -/

theorem bitsValue_append_singleton (bs : List Bool) (b : Bool) :
    bitsValue (bs ++ [b]) = (bitsValue bs <<< 1) ||| (BitVec.ofBool b).setWidth 24 := by
  simp [bitsValue]

/-- The first `k` bits of a word, most significant first, are its top `k` bits. -/
theorem bitsValue_leadingBits {n : Nat} (x : BitVec n) (k : Nat) (hk : k ≤ n) :
    bitsValue ((List.range k).map fun i => x.getMsbD i) = (x >>> (n - k)).setWidth 24 := by
  induction k with
  | zero => simp [bitsValue, BitVec.ushiftRight_eq_zero]
  | succ k ih =>
    rw [List.range_succ, List.map_append, List.map_singleton, bitsValue_append_singleton, ih (by omega)]
    apply BitVec.eq_of_getLsbD_eq
    intro j hj
    cases j with
    | zero => simp [BitVec.getMsbD, show n - (k + 1) = n - 1 - k by omega, show k < n by omega]
    | succ j => simp [hj, show n - (k + 1) + (j + 1) = n - k + j by omega]

/-- The accumulator after all bits of a word (20_memory.md R52). -/
theorem bitsValue_bitsMsbFirst {n : Nat} (x : BitVec n) : bitsValue (bitsMsbFirst x) = x.setWidth 24 := by
  rw [bitsMsbFirst, bitsValue_leadingBits x n (Nat.le_refl n), Nat.sub_self, BitVec.ushiftRight_zero]

/-- A Mode A frame's bits assemble to the packet of its two bytes (R89, R106). -/
theorem assemble_bitsA (st a : Byte) : assemble .a (bitsValue (bitsA st a)) = packetA st a := by
  have status : ((st ++ a).setWidth 24).extractLsb' 8 8 = st :=
    (BitVec.extractLsb'_setWidth_of_le (by decide)).trans BitVec.extractLsb'_append_eq_left
  have ascii : ((st ++ a).setWidth 24).extractLsb' 0 8 = a :=
    (BitVec.extractLsb'_setWidth_of_le (by decide)).trans BitVec.extractLsb'_append_eq_right
  rw [bitsA, bitsValue_bitsMsbFirst, assemble, status, ascii]

/-! ### A frame, edge by edge -/

/-- The decoder in a frame of mode m after its header and the bits bs, waiting for a low time. -/
def inFrame (m : Mode) (bs : List Bool) : Decoder := ⟨receiving m, .rising, BitVec.ofNat 5 bs.length, bitsValue bs, false⟩

/-- What an EDGE that completes no frame leaves, by the decoder's new state. -/
def State.afterEdge (s : State) (d : Decoder) : State := { s with dec := d, output := .nothing }

/-- EDGEs in a row that complete no frame compose by the decoder alone (R109). -/
theorem exec_edge_afterEdge {s : State} {pol : Polarity} {t : Ticks} {d d' : Decoder}
    (h : onEdge s.cfg.windows pol t d = (d', none)) : exec (.edge pol t) (s.afterEdge d) = .next (s.afterEdge d') :=
  exec_edge_of_no_packet (s := s.afterEdge d) h

theorem shiftIn_inFrame (m : Mode) (bs : List Bool) (b : Bool) : shiftIn b (inFrame m bs) = inFrame m (bs ++ [b]) := by
  simp [shiftIn, inFrame, bitsValue_append_singleton, BitVec.ofNat_add]

theorem inFrame_bitcnt_lt {m : Mode} {bs : List Bool} (room : bs.length < (frameLen m).toNat) :
    (inFrame m bs).bitcnt < frameLen m := by
  have := (frameLen m).isLt
  simp only [inFrame, BitVec.lt_def, BitVec.toNat_ofNat]
  omega

section
variable {s : State} {m : Mode} {f : FrameTimes} {bs : List Bool}

/-- The three edges of a header (R101-R103). -/
theorem execAll_header (idle : s.dec.phase = .idle) (armed : s.dec.armed = .falling)
    (conforming : s.cfg.windows.conforming = true) (headLow : inWindow f.headLow (hdrLow s.cfg.windows m) = true)
    (headHigh : inWindow f.headHigh (hdrHigh s.cfg.windows m) = true) :
    execAll [.edge .falling f.start, .edge .rising f.headLow, .edge .falling f.headHigh] s =
      .next (s.afterEdge (inFrame m [])) := by
  have start := onEdge_idleFall s.cfg.windows f.start armed idle
  have low : onEdge s.cfg.windows .rising f.headLow { s.dec with armed := .rising } =
      (acceptHeader m { s.dec with armed := .falling }, none) :=
    (onEdge_headerLow (d := { s.dec with armed := .rising }) _ _ rfl idle).trans
      (congrArg (·, none) (headerLow_of_hdrLow conforming headLow _))
  have high : onEdge s.cfg.windows .falling f.headHigh (acceptHeader m { s.dec with armed := .falling }) =
      (inFrame m [], none) :=
    (onEdge_highSample _ _ rfl rfl).trans (congrArg (·, none) (highSample_header ⟨rfl, headHigh⟩))
  exact (execAll_cons (exec_edge_of_no_packet start) _).trans
    ((execAll_cons (exec_edge_afterEdge low) _).trans (execAll_cons (exec_edge_afterEdge high) _))

/-- The two edges of one bit (R103-R105). -/
theorem execAll_bit {b : Bool} {x : BitTimes}
    (disjoint : (bit0High s.cfg.windows m).disjoint (bit1High s.cfg.windows m) = true)
    (room : bs.length < (frameLen m).toNat) (conforms : x.conforms s.cfg.windows m b = true) :
    execAll x.edges (s.afterEdge (inFrame m bs)) = .next (s.afterEdge (inFrame m (bs ++ [b]))) := by
  have room := inFrame_bitcnt_lt room
  obtain ⟨low, high⟩ := (Bool.and_eq_true _ _).mp conforms
  have notFull : (inFrame m bs).bitcnt ≠ frameLen m := BitVec.ne_of_lt room
  have lowEdge : onEdge s.cfg.windows .rising x.low (inFrame m bs) = ({ inFrame m bs with armed := .falling }, none) :=
    (onEdge_lowSample (d := inFrame m bs) _ _ rfl rfl).trans (lowSample_continue low notFull)
  have shifted : highSample s.cfg.windows m x.high (inFrame m bs) = inFrame m (bs ++ [b]) := by
    rw [highSample_bit disjoint (by simp [inFrame]) room high, ← shiftIn_inFrame]
    rfl
  have highEdge : onEdge s.cfg.windows .falling x.high { inFrame m bs with armed := .falling } =
      (inFrame m (bs ++ [b]), none) :=
    (onEdge_highSample _ _ rfl rfl).trans (congrArg (·, none) shifted)
  exact (execAll_cons (exec_edge_afterEdge lowEdge) _).trans (execAll_cons (exec_edge_afterEdge highEdge) _)

/-- The edges of all remaining bits, after those already received (R104). -/
theorem execAll_bits {xs : List BitTimes}
    (disjoint : (bit0High s.cfg.windows m).disjoint (bit1High s.cfg.windows m) = true) (done : List Bool)
    (room : done.length + bs.length ≤ (frameLen m).toNat) (conforms : bitsConform s.cfg.windows m bs xs = true) :
    execAll (xs.flatMap BitTimes.edges) (s.afterEdge (inFrame m done)) = .next (s.afterEdge (inFrame m (done ++ bs))) := by
  induction bs generalizing xs done with
  | nil =>
    cases xs with
    | nil => simp
    | cons x xs => cases conforms
  | cons b bs ih =>
    cases xs with
    | nil => cases conforms
    | cons x xs =>
      obtain ⟨bit, rest⟩ := (Bool.and_eq_true _ _).mp conforms
      rw [List.length_cons] at room
      rw [List.flatMap_cons, execAll_append (execAll_bit disjoint (by omega) bit), ih _ (by simp; omega) rest, List.append_assoc]
      rfl

theorem length_eq_of_bitsConform {w : Windows} {xs : List BitTimes} (conforms : bitsConform w m bs xs = true) :
    xs.length = bs.length := by
  induction bs generalizing xs with
  | nil => cases xs <;> trivial
  | cons b bs ih =>
    cases xs with
    | nil => cases conforms
    | cons x xs => exact congrArg (· + 1) (ih ((Bool.and_eq_true _ _).mp conforms).2)

theorem FrameTimes.edges_length {w : Windows} (conforms : f.conforms w m bs = true) :
    f.edges.length = 2 * bs.length + 4 := by
  simp only [FrameTimes.conforms, Bool.and_eq_true] at conforms
  obtain ⟨⟨-, bits⟩, -⟩ := conforms
  simp [FrameTimes.edges, BitTimes.edges, length_eq_of_bitsConform bits]
  omega

section
variable (idle : s.dec.phase = .idle) (armed : s.dec.armed = .falling) (conforming : s.cfg.windows.conforming = true)
    (disjoint : (bit0High s.cfg.windows m).disjoint (bit1High s.cfg.windows m) = true)
    (length : bs.length = (frameLen m).toNat) (conforms : f.conforms s.cfg.windows m bs = true)
include idle armed conforming disjoint length conforms

/-- A conforming frame up to its last bit (R108 (b), (c)): nothing is published yet. -/
theorem execAll_frame_dropLast : execAll f.edges.dropLast s = .next (s.afterEdge (inFrame m bs)) := by
  simp only [FrameTimes.conforms, Bool.and_eq_true] at conforms
  obtain ⟨⟨⟨headLow, headHigh⟩, bits⟩, -⟩ := conforms
  rw [FrameTimes.edges, List.dropLast_concat, execAll_append (execAll_header idle armed conforming headLow headHigh)]
  exact execAll_bits disjoint [] (by simp [length]) bits

/-- A conforming frame publishes the packet of its bits and leaves the decoder Idle (R105, R108 (b), (c)). -/
theorem execAll_frame : execAll f.edges s =
    .next { s with dec := Decoder.reset, mbx := ⟨true, assemble m (bitsValue bs)⟩, output := .nothing } := by
  have last : inWindow f.last s.cfg.windows.bitLow = true := ((Bool.and_eq_true _ _).mp conforms).2
  have full : (inFrame m bs).bitcnt = frameLen m := by rw [inFrame, length, BitVec.ofNat_toNat, BitVec.setWidth_eq]
  have beforeLast := execAll_frame_dropLast idle armed conforming disjoint length conforms
  rw [FrameTimes.edges, List.dropLast_concat] at beforeLast
  have complete := (onEdge_lowSample (d := inFrame m bs) _ _ rfl rfl).trans (lowSample_complete last full)
  rw [FrameTimes.edges, execAll_append beforeLast]
  exact execAll_cons (exec_edge_of_packet (s := s.afterEdge (inFrame m bs)) complete) _

end

end

/-! ### Offered operations run in order (R205) -/

theorem decodeOffer_offer (i : Instr) : decodeOffer i.offer = .ok i :=
  decodeOffer_ok.mpr ⟨decodeOfEncodeIsTheInstruction i, rfl⟩

/-- No operation reads the words offered. -/
theorem exec_setPending {s t : State} {i : Instr} (h : exec i s = .next t) (ps : List Offer) :
    exec i (s.setPending ps) = .next (t.setPending ps) := by
  cases i with
  | poll =>
    obtain ⟨ready, rfl⟩ | ⟨empty, rfl⟩ := exec_poll_cases h
    · exact execPoll_ready (s := s.setPending ps) ready
    · exact execPoll_empty (s := s.setPending ps) empty
  | edge | readRow | init | handleA | handleB => cases next_inj h; rfl

theorem step_offer {s t : State} {i : Instr} {ps : List Offer} (offered : s.pending = i.offer :: ps)
    (h : exec i s = .next t) : step s = .next (t.setPending ps) :=
  (step_exec offered (decodeOffer_offer i)).trans (exec_setPending h ps)

theorem execAll_cons_cases {s t : State} {i : Instr} {ops : List Instr} (h : execAll (i :: ops) s = .next t) :
    ∃ u, exec i s = .next u ∧ execAll ops u = .next t := by
  rw [execAll] at h
  split at h
  · exact ⟨_, ‹_›, h⟩
  · cases h
  · cases h

theorem execAll_setPending {s t : State} {ops : List Instr} (h : execAll ops s = .next t) (ps : List Offer) :
    execAll ops (s.setPending ps) = .next (t.setPending ps) := by
  induction ops generalizing s with
  | nil => cases next_inj h; rfl
  | cons i ops ih =>
    obtain ⟨u, first, others⟩ := execAll_cons_cases h
    rw [execAll_cons (exec_setPending first ps), ih others]

/-- As many steps as operations are offered run exactly those, and leave the rest offered. -/
theorem run_offers {s t : State} {ops : List Instr} {rest : List Offer} (offered : s.pending = ops.map Instr.offer ++ rest)
    (h : execAll ops s = .next t) : run ops.length s = .next (t.setPending rest) := by
  induction ops generalizing s t with
  | nil =>
    cases next_inj h
    obtain rfl : s.pending = rest := offered
    rfl
  | cons i ops ih =>
    obtain ⟨u, first, others⟩ := execAll_cons_cases h
    rw [List.length_cons, run_succ (step_offer offered first)]
    exact (ih rfl (execAll_setPending others _)).trans rfl

/-- Settles O27: the frame's edges publish the packet of its bytes, and POLL hands that packet to HANDLE, as HANDLE_A does. -/
theorem frameThenPollIsHandleA : Obligations.FrameThenPollIsHandleA := by
  intro s st a f rest idle armed conforming disjoint conforms offered
  have frame := execAll_frame (m := .a) idle armed conforming disjoint rfl conforms
  rw [assemble_bitsA] at frame
  have poll := exec_poll_of_handle (s := { s with dec := Decoder.reset, mbx := ⟨true, packetA st a⟩, output := .nothing })
    (p := packetA st a) rfl fun _ _ => rfl
  have all := (execAll_append frame [.poll]).trans (execAll_cons poll [])
  have steps : (f.edges ++ [Instr.poll]).length = 37 := by
    rw [List.length_append, FrameTimes.edges_length conforms]
    rfl
  have run := run_offers (ops := f.edges ++ [.poll]) (rest := rest) (by simp [offered]) all
  rw [steps] at run
  exact ⟨_, _, run, exec_handleA st a s, rfl, rfl, rfl, rfl, rfl, rfl, rfl, rfl⟩

end Sys2Proof.Machine
end

section
/-! Proofs about refused words (60_exceptions.md R223, 43_host_ops.md R205). -/

namespace Sys2Proof.Machine

/-- An offer is refused for its word or for its agent, and for nothing else. -/
theorem exists_decodeOffer_error_iff {o : Offer} :
    (∃ e, decodeOffer o = .error e) ↔
      (∃ e, decode o.word = .error e) ∨ ∃ i, decode o.word = .ok i ∧ i.agent ≠ o.agent := by
  unfold decodeOffer
  cases decode o.word with
  | error e => simp
  | ok i => by_cases agent : i.agent = o.agent <;> simp [agent]

/-- Settles O9: either cause makes the decoder refuse the offer, and a refused offer only marks the state. -/
theorem stepRefusesIllFormedAndWrongAgentWords : Obligations.StepRefusesIllFormedAndWrongAgentWords := by
  intro s o rest offered cause
  obtain ⟨e, refused⟩ := exists_decodeOffer_error_iff.mpr cause
  exact step_refuse offered refused

end Sys2Proof.Machine
end

section
/-! Proofs about hardware reset (70_reset_and_hazards.md R250). -/

namespace Sys2Proof.Machine

/-- INIT gives the reset state of the parameters in force, with the mark and the words offered kept (R200, R250). -/
theorem exec_init_eq_resetWith (s : State) :
    exec .init s = .next { State.resetWith s.cfg with refused := s.refused, pending := s.pending } := rfl

/-- Settles O37: INIT gives a reset state, and the components compared do not depend on its parameters; the matrix at reset
holds no cell. -/
theorem resetIsTheStateInitGives : Obligations.ResetIsTheStateInitGives :=
  ⟨fun s => ⟨_, exec_init_eq_resetWith s, rfl, rfl, rfl, rfl⟩, rfl, rfl, rfl, cell_reset, rfl⟩

end Sys2Proof.Machine
end

section
/-! Proofs about what an operation may do to the decoder and the mailbox (10_state.md R20, R37, 40_decoder.md R100-R108,
41_mailbox.md R143), and that every step keeps the block's invariant (R26, R27, R36). The moves of the decoder are listed once;
both of its invariants are then a look at each move. -/

namespace Sys2Proof.Machine

open Config

/-! ### The moves of the decoder -/

/-- What an EDGE can turn the decoder's state into (40_decoder.md R100-R107), with what its invariants need of the state before. -/
inductive Decoder.Moves (d : Decoder) : Decoder → Prop where
  /-- the polarity was not armed (R100) -/
  | ignored : d.Moves d
  /-- in Idle without a header (R101, R102) -/
  | idle (pol : Polarity) (phase : d.phase = .idle) : d.Moves { d with armed := pol }
  /-- a header is accepted (R102) -/
  | header (m : Mode) : d.Moves (acceptHeader m { d with armed := .falling })
  /-- the frame is discarded, or complete (R105, R107) -/
  | abort (pol : Polarity) : d.Moves (abort { d with armed := pol })
  /-- the header high (R103) -/
  | headerHigh (m : Mode) (phase : d.phase = receiving m) : d.Moves { d with armed := .rising, hdrHiOk := false }
  /-- one bit of a frame that is not full (R103, R104) -/
  | bit (m : Mode) (b : Bool) (phase : d.phase = receiving m) (room : d.bitcnt < frameLen m) :
      d.Moves { shiftIn b { d with armed := .rising } with hdrHiOk := false }
  /-- a low time of a frame that is not full (R105) -/
  | low (m : Mode) (phase : d.phase = receiving m) (armed : d.armed = .rising) (notFull : d.bitcnt ≠ frameLen m) :
      d.Moves { d with armed := .falling }

theorem headerLow_cases (w : Windows) (t : Ticks) (d : Decoder) :
    (∃ m, headerLow w t d = acceptHeader m d) ∨ headerLow w t d = d := by
  unfold headerLow
  split_ifs
  · exact .inl ⟨.a, rfl⟩
  · exact .inl ⟨.b, rfl⟩
  · exact .inr rfl

theorem highSample_cases (w : Windows) (m : Mode) (t : Ticks) (d : Decoder) :
    highSample w m t d = { d with hdrHiOk := false } ∨
    (d.bitcnt < frameLen m ∧ ∃ b, highSample w m t d = { shiftIn b d with hdrHiOk := false }) ∨
    highSample w m t d = abort d := by
  by_cases header : d.hdrHiOk = true ∧ inWindow t (hdrHigh w m) = true
  · exact .inl (highSample_header header)
  by_cases zero : d.bitcnt < frameLen m ∧ inWindow t (bit0High w m) = true
  · exact .inr (.inl ⟨zero.1, false, highSample_zero header zero⟩)
  by_cases one : d.bitcnt < frameLen m ∧ inWindow t (bit1High w m) = true
  · exact .inr (.inl ⟨one.1, true, highSample_one header zero one⟩)
  · exact .inr (.inr (highSample_abort header zero one))

theorem lowSample_cases (w : Windows) (m : Mode) (t : Ticks) (d : Decoder) :
    (lowSample w m t d).1 = abort d ∨ (d.bitcnt ≠ frameLen m ∧ (lowSample w m t d).1 = d) := by
  by_cases valid : inWindow t w.bitLow = true
  · by_cases full : d.bitcnt = frameLen m
    · exact .inl (congrArg Prod.fst (lowSample_complete valid full))
    · exact .inr ⟨full, congrArg Prod.fst (lowSample_continue valid full)⟩
  · exact .inl (congrArg Prod.fst (lowSample_abort (Bool.not_eq_true _ ▸ valid)))

theorem onEdge_moves (w : Windows) (pol : Polarity) (t : Ticks) (d : Decoder) : d.Moves (onEdge w pol t d).1 := by
  obtain ⟨-, e⟩ | ⟨-, -, idle, e⟩ | ⟨-, -, idle, e⟩ | ⟨m, -, -, phase, e⟩ | ⟨m, -, armed, phase, e⟩ :=
    onEdge_cases w pol t d <;> rw [e]
  · exact .ignored
  · exact .idle .rising idle
  · obtain ⟨m, e⟩ | e := headerLow_cases w t { d with armed := .falling } <;> rw [e]
    · exact .header m
    · exact .idle .falling idle
  · obtain e | ⟨room, b, e⟩ | e := highSample_cases w m t { d with armed := .rising } <;> rw [e]
    · exact .headerHigh m phase
    · exact .bit m b phase room
    · exact .abort .rising
  · obtain e | ⟨notFull, e⟩ := lowSample_cases w m t { d with armed := .falling } <;> rw [e]
    · exact .abort .falling
    · exact .low m phase armed notFull

/-! ### The decoder's invariants, move by move -/

theorem shiftIn_bitcnt {d : Decoder} {m : Mode} (b : Bool) (room : d.bitcnt < frameLen m) :
    (shiftIn b d).bitcnt.toNat = d.bitcnt.toNat + 1 := by
  have := (frameLen m).isLt
  rw [shiftIn]
  bv_omega

theorem shiftIn_acc_lt {b : Bool} {d : Decoder} {m : Mode} (room : d.bitcnt < frameLen m)
    (lt : d.acc.toNat < 2 ^ d.bitcnt.toNat) : (shiftIn b d).acc.toNat < 2 ^ (shiftIn b d).bitcnt.toNat := by
  have shifted : (d.acc <<< 1).toNat ≤ 2 * d.acc.toNat := by
    rw [BitVec.toNat_shiftLeft, Nat.shiftLeft_eq, Nat.mul_comm]
    exact Nat.mod_le _ _
  have bit : ((BitVec.ofBool b).setWidth 24).toNat < 2 := by cases b <;> decide
  have pow : 2 ^ (d.bitcnt.toNat + 1) = 2 * 2 ^ d.bitcnt.toNat := Nat.pow_succ'
  rw [shiftIn_bitcnt b room, shiftIn, BitVec.toNat_or]
  apply Nat.or_lt_two_pow <;> omega

/-- R26 (a) to (d), after each move. -/
theorem Decoder.Inv.moves {d d' : Decoder} (inv : d.Inv) (move : d.Moves d') : d'.Inv := by
  cases move with
  | ignored => exact inv
  | idle pol phase =>
    obtain ⟨bitcnt, acc, noAllowance⟩ := inv.idle_cleared phase
    constructor <;> simp [phase, modeOf, bitcnt, acc, noAllowance]
  | header m => exact ⟨fun idle => absurd idle (receiving_ne_idle m), fun _ _ => BitVec.le_def.mpr (Nat.zero_le _), fun _ => ⟨rfl, rfl⟩,
      fun _ => Nat.one_pos⟩
  | abort pol => constructor <;> simp [abort, modeOf]
  | headerHigh m phase =>
    exact ⟨fun idle => by simp [phase] at idle, inv.bitcnt_le, nofun, inv.acc_lt⟩
  | bit m b phase room =>
    refine ⟨fun idle => ?_, fun m' mode => ?_, nofun, fun notIdle => ?_⟩
    · simp [shiftIn, phase] at idle
    · simp only [shiftIn, phase, modeOf_receiving, Option.some.injEq] at mode
      subst mode
      exact BitVec.le_def.mpr ((shiftIn_bitcnt b room).trans_le (BitVec.lt_def.mp room))
    · exact shiftIn_acc_lt (d := { d with armed := .rising }) room (inv.acc_lt (by simp [phase]))
  | low m phase armed =>
    exact ⟨fun idle => by simp [phase] at idle, inv.bitcnt_le,
      fun allowed => absurd (inv.allowance allowed).2 (by simp [armed]), inv.acc_lt⟩

/-- 40_decoder.md R103 corner case (d), after each move. -/
theorem Decoder.fullWaitsForLow_moves {d d' : Decoder} (inv : d.fullWaitsForLow) (move : d.Moves d') : d'.fullWaitsForLow := by
  cases move with
  | ignored => exact inv
  | idle pol phase => simp [fullWaitsForLow, phase, modeOf]
  | header m => cases m <;> simp [fullWaitsForLow, acceptHeader, modeOf, receiving, frameLen]
  | abort pol => simp [fullWaitsForLow, Machine.abort, modeOf]
  | headerHigh | bit => exact fun _ _ _ => rfl
  | low m phase armed notFull => simp [fullWaitsForLow, phase, notFull]

/-! ### What an operation does to the decoder and the mailbox -/

/-- The decoder's one inversion lemma: EDGE moves it, INIT resets it, every other operation leaves it (10_state.md R20, R200). -/
theorem exec_dec_cases {s t : State} {i : Instr} (h : exec i s = .next t) :
    (i.agent = .edge ∧ s.dec.Moves t.dec) ∨ (i = .init ∧ t.dec = Decoder.reset) ∨ (i.agent = .poll ∧ t.dec = s.dec) := by
  cases i with
  | edge pol ticks => cases next_inj h; exact .inl ⟨rfl, onEdge_moves s.cfg.windows pol ticks s.dec⟩
  | init => cases next_inj h; exact .inr (.inl ⟨rfl, rfl⟩)
  | poll => obtain ⟨-, rfl⟩ | ⟨-, rfl⟩ := exec_poll_cases h <;> exact .inr (.inr ⟨rfl, rfl⟩)
  | readRow | handleA | handleB => cases next_inj h; exact .inr (.inr ⟨rfl, rfl⟩)

/-- This edge is the valid low time that completes a frame of mode m (40_decoder.md R105). -/
structure State.CompletesFrame (s : State) (pol : Polarity) (ticks : Ticks) (m : Mode) : Prop where
  rising : pol = .rising
  armed : s.dec.armed = .rising
  phase : s.dec.phase = receiving m
  full : s.dec.bitcnt = frameLen m
  valid : inWindow ticks s.cfg.windows.bitLow = true

/-- An EDGE completes no frame and leaves the mailbox, or it completes one, publishes its packet and is back in Idle (R105). -/
theorem exec_edge_mbx_cases {s t : State} {pol : Polarity} {ticks : Ticks} (h : exec (.edge pol ticks) s = .next t) :
    t.mbx = s.mbx ∨
    ∃ m, s.CompletesFrame pol ticks m ∧ t.mbx = ⟨true, assemble m s.dec.acc⟩ ∧ t.dec = Decoder.reset := by
  cases next_inj h
  cases answer : (onEdge s.cfg.windows pol ticks s.dec).2 with
  | none => exact .inl rfl
  | some p =>
    obtain ⟨m, rising, armed, phase, valid, full, rfl, dec⟩ := onEdge_packet answer
    exact .inr ⟨m, ⟨rising, armed, phase, full, valid⟩, rfl, dec⟩

/-- The mailbox's one inversion lemma: EDGE may publish into it, POLL drains it, INIT resets it, every other operation leaves it
(10_state.md R20, 41_mailbox.md). -/
theorem exec_mbx_cases {s t : State} {i : Instr} (h : exec i s = .next t) :
    (∃ pol ticks m, i = .edge pol ticks ∧ s.CompletesFrame pol ticks m ∧ t.mbx = ⟨true, assemble m s.dec.acc⟩) ∨
    (i = .poll ∧ t.mbx = { s.mbx with ready := false }) ∨ (i = .init ∧ t.mbx = Mailbox.reset) ∨
    (i ≠ .poll ∧ t.mbx = s.mbx) := by
  cases i with
  | edge pol ticks =>
    obtain same | ⟨m, completes, mbx, -⟩ := exec_edge_mbx_cases h
    · exact .inr (.inr (.inr ⟨nofun, same⟩))
    · exact .inl ⟨pol, ticks, m, rfl, completes, mbx⟩
  | poll =>
    obtain ⟨-, rfl⟩ | ⟨empty, rfl⟩ := exec_poll_cases h
    · exact .inr (.inl ⟨rfl, rfl⟩)
    · exact .inr (.inl ⟨rfl, by rw [← empty]; rfl⟩)
  | init => cases next_inj h; exact .inr (.inr (.inl ⟨rfl, rfl⟩))
  | readRow | handleA | handleB => cases next_inj h; exact .inr (.inr (.inr ⟨nofun, rfl⟩))

/-! ### The interpreter leaves the hardwired cells 0 (10_state.md R36) -/

/-- The cells a key can occupy: the ASCII region and the ten extended cells (R33, R34). -/
def keyCell (r : Fin 19) (c : Fin 16) : Prop := r.val < 16 ∨ (r = modRow ∧ 5 ≤ c.val ∧ c.val ≤ 14)

theorem row_le_of_keyCell {r : Fin 19} {c : Fin 16} (h : keyCell r c) : r.val ≤ 16 := by
  obtain low | ⟨rfl, -⟩ := h
  · exact Nat.le_of_lt low
  · exact Nat.le_refl 16

theorem keyCell_of_isCellOf {code : Byte} {r : Fin 19} {c : Fin 16} (h : isCellOf code r c) : keyCell r c :=
  .inl (h.1 ▸ asciiRow_lt code)

theorem keyCell_of_isExtCell {e : Fin 10} {r : Fin 19} {c : Fin 16} (h : isExtCell e r c) : keyCell r c := by
  obtain ⟨row, rfl⟩ := h
  exact .inr ⟨row, by simp, by simp; omega⟩

theorem keyCell_of_registers {t : Tables} {st c0 : Byte} {ses : Session} {r : Fin 19} {c : Fin 16}
    (h : Registers t st c0 ses r c) : keyCell r c := by
  cases h with
  | tenkeyImage | tenkeyOther | ctrlC | ctrlR | original | general => exact keyCell_of_isCellOf ‹_›
  | special | numpadEnter => exact keyCell_of_isExtCell ‹_›

theorem keyCell_of_clearedCell {st : Byte} {ses : Session} {r : Fin 19} {c : Fin 16} (h : clearedCell st ses r c) :
    keyCell r c := by
  obtain ⟨-, path⟩ := h
  split at path
  · exact .inr path
  · exact keyCell_of_isCellOf path

/-- A Mode A packet leaves every cell that is neither a key's nor a modifier. -/
theorem cell_modeA_other {r : Fin 19} {c : Fin 16} (noKey : ¬ keyCell r c) (noModifier : ¬ (r = modRow ∧ c.val < 5))
    (t : Tables) (st c0 : Byte) (k : Interp) : cell (modeA t st c0 k).M r c = cell k.M r c := by
  have notRegistered := mt (keyCell_of_registers (t := t) (st := st) (c0 := c0) (ses := k.ses)) noKey
  have notCleared := mt (keyCell_of_clearedCell (st := st) (ses := k.ses)) noKey
  rw [cell_modeA, if_neg noModifier, Bool.eq_iff_iff, cell_branch, registers_clearPrevious, cell_clearPrevious_iff]
  simp [notRegistered, notCleared]

theorem cell_modeA_hardwired16 (t : Tables) (st c0 : Byte) (k : Interp) :
    cell (modeA t st c0 k).M 16 15 = cell k.M 16 15 :=
  cell_modeA_other (by simp [keyCell]) (by simp) t st c0 k

/-- The game-key rows are Mode B's alone (R33). -/
theorem cell_modeA_gameKeyRow {r : Fin 19} (row : 17 ≤ r.val) (c : Fin 16) (t : Tables) (st c0 : Byte) (k : Interp) :
    cell (modeA t st c0 k).M r c = cell k.M r c := by
  refine cell_modeA_other (fun key => ?_) ?_ t st c0 k
  · have := row_le_of_keyCell key
    omega
  · rintro ⟨rfl, -⟩
    exact absurd row (by decide)

theorem handle_hardwiredZero (t : Tables) (p : Packet) {k : Interp} (h : hardwiredZero k.M) :
    hardwiredZero (handle t p k).M := by
  obtain ⟨row16, row18⟩ := h
  cases mode : p.isModeB with
  | true =>
    rw [handle_of_isModeB t mode]
    refine ⟨(cell_modeB_other (by decide) (by decide) _ k 15).trans row16, fun c high => ?_⟩
    rw [cell_modeB_row18, decide_eq_false (by omega), Bool.false_and]
  | false =>
    rw [handle_of_not_isModeB t mode]
    exact ⟨(cell_modeA_hardwired16 ..).trans row16, fun c high => (cell_modeA_gameKeyRow (by decide) ..).trans (row18 c high)⟩

/-! ### From operations to steps -/

/-- A step leaves the block's components, or it runs the operation offered from a state with the same components. -/
theorem step_keeps_or_execs {s t : State} (h : step s = .next t) :
    (t.dec = s.dec ∧ t.mbx = s.mbx ∧ t.interp = s.interp ∧ t.cfg = s.cfg) ∨
    ∃ o rest i, s.pending = o :: rest ∧ decodeOffer o = .ok i ∧ exec i (s.setPending rest) = .next t := by
  obtain ⟨-, e⟩ | ⟨o, rest, i, offered, decoded, e⟩ | ⟨o, rest, e', -, -, e⟩ := step_cases s <;> rw [e] at h
  · cases next_inj h; exact .inl ⟨rfl, rfl, rfl, rfl⟩
  · exact .inr ⟨o, rest, i, offered, decoded, h⟩
  · cases next_inj h; exact .inl ⟨rfl, rfl, rfl, rfl⟩

theorem exec_keeps_slot_wellFormed {s t : State} {i : Instr} (h : exec i s = .next t) (slot : s.mbx.slot.wellFormed) :
    t.mbx.slot.wellFormed := by
  obtain ⟨-, -, m, -, -, e⟩ | ⟨-, e⟩ | ⟨-, e⟩ | ⟨-, e⟩ := exec_mbx_cases h <;> rw [e]
  · exact assemble_wellFormed m s.dec.acc
  · exact slot
  · exact ⟨fun _ => rfl, nofun⟩
  · exact slot

theorem exec_keeps_hardwiredZero {s t : State} {i : Instr} (h : exec i s = .next t) (matrix : hardwiredZero s.M) :
    hardwiredZero t.M := by
  change hardwiredZero t.interp.M
  obtain ⟨-, -, e⟩ | ⟨-, p, -, e⟩ | ⟨-, -, e⟩ := exec_interp_cases h <;> rw [e]
  · exact ⟨cell_reset .., fun c _ => cell_reset 18 c⟩
  · exact handle_hardwiredZero s.cfg.tables p matrix
  · exact matrix

theorem decoder_reset_inv : Decoder.reset.Inv := by constructor <;> simp [Decoder.reset, modeOf]

theorem decoder_reset_fullWaitsForLow : Decoder.reset.fullWaitsForLow := nofun

theorem exec_keeps_inv {s t : State} {i : Instr} (h : exec i s = .next t) (inv : s.Inv) : t.Inv := by
  obtain ⟨-, cfg, -⟩ := exec_frame h
  refine ⟨?_, exec_keeps_slot_wellFormed h inv.slot, exec_keeps_hardwiredZero h inv.matrix, cfg ▸ inv.cfg⟩
  obtain ⟨-, move⟩ | ⟨-, e⟩ | ⟨-, e⟩ := exec_dec_cases h
  · exact inv.dec.moves move
  · exact e ▸ decoder_reset_inv
  · exact e ▸ inv.dec

/-! ### The statements -/

/-- Settles O55: each component's part of the invariant is kept by every operation, and no part speaks of the words offered. -/
theorem everyStepKeepsTheInvariant : Obligations.EveryStepKeepsTheInvariant := by
  intro s t inv h
  obtain ⟨dec, mbx, interp, cfg⟩ | ⟨o, rest, i, -, -, h⟩ := step_keeps_or_execs h
  · have matrix : t.M = s.M := congrArg Interp.M interp
    exact ⟨dec ▸ inv.dec, mbx ▸ inv.slot, matrix ▸ inv.matrix, cfg ▸ inv.cfg⟩
  · exact exec_keeps_inv h ⟨inv.dec, inv.slot, inv.matrix, inv.cfg⟩

/-- Settles O56: the parameters at reset are the default windows and the board's tables, which conform by their type. -/
theorem invariantHoldsAtReset : Obligations.InvariantHoldsAtReset where
  dec := decoder_reset_inv
  slot := ⟨fun _ => rfl, nofun⟩
  matrix := ⟨cell_reset .., fun c _ => cell_reset 18 c⟩
  cfg := (Bool.and_eq_true _ _).mpr ⟨by decide, Config.board.conforming⟩

/-- Settles O57: at reset no frame is received, and each move of the decoder keeps a full frame waiting for its low time. -/
theorem fullFrameAlwaysWaitsForALowTime : Obligations.FullFrameAlwaysWaitsForALowTime := by
  refine ⟨decoder_reset_fullWaitsForLow, fun s t inv h => ?_⟩
  obtain ⟨dec, -⟩ | ⟨o, rest, i, -, -, h⟩ := step_keeps_or_execs h
  · exact dec ▸ inv
  · obtain ⟨-, move⟩ | ⟨-, e⟩ | ⟨-, e⟩ := exec_dec_cases h
    · exact Decoder.fullWaitsForLow_moves inv move
    · exact e ▸ decoder_reset_fullWaitsForLow
    · exact e ▸ inv

/-- Settles O22: an EDGE that changes the mailbox completes a frame. -/
theorem edgePublishesOnlyFullFrames : Obligations.EdgePublishesOnlyFullFrames := by
  intro s t pol ticks h
  obtain same | ⟨m, ⟨rising, armed, phase, full, valid⟩, mbx, dec⟩ := exec_edge_mbx_cases h
  · exact .inl same
  · exact .inr ⟨m, rising, armed, phase, full, valid, mbx, dec⟩

/-- Settles O33: POLL drains the mailbox, and from an empty one only an EDGE that completes a frame fills it. -/
theorem handledPacketIsNotHandledAgain : Obligations.HandledPacketIsNotHandledAgain := by
  refine ⟨fun s => ?_, fun s t i empty h => ?_⟩
  · have drained : (pollWith (take s.mbx).1 (s.setMbx (take s.mbx).2)).mbx.ready = false := by
      cases taken : (take s.mbx).1 <;> exact take_ready s.mbx
    exact ⟨_, rfl, drained, execPoll_empty drained⟩
  · obtain ⟨pol, ticks, m, rfl, ⟨rfl, armed, phase, full, valid⟩, mbx⟩ | ⟨-, e⟩ | ⟨-, e⟩ | ⟨-, e⟩ := exec_mbx_cases h
    · exact .inr ⟨ticks, m, rfl, armed, phase, full, valid, mbx⟩
    · exact .inl (congrArg Mailbox.ready e)
    · exact .inl (congrArg Mailbox.ready e)
    · exact .inl ((congrArg Mailbox.ready e).trans empty)

/-- Settles O54: the inversion lemmas of the interpreter, the decoder and the mailbox name each component's owners. -/
theorem eachComponentIsWrittenOnlyByItsOwner : Obligations.EachComponentIsWrittenOnlyByItsOwner := by
  intro s t i h notInit
  refine ⟨fun noPacket => ?_, fun poll => ?_, fun poll notPoll => ?_⟩
  · obtain ⟨init, -⟩ | ⟨-, p, handled, -⟩ | ⟨-, -, e⟩ := exec_interp_cases h
    · exact absurd init notInit
    · rw [noPacket] at handled; cases handled
    · exact ⟨congrArg Interp.M e, congrArg Interp.ses e⟩
  · obtain ⟨edge, -⟩ | ⟨init, -⟩ | ⟨-, e⟩ := exec_dec_cases h
    · rw [poll] at edge; cases edge
    · exact absurd init notInit
    · exact e
  · obtain ⟨_, _, _, rfl, -⟩ | ⟨isPoll, -⟩ | ⟨init, -⟩ | ⟨-, e⟩ := exec_mbx_cases h
    · cases poll
    · exact absurd isPoll notPoll
    · exact absurd init notInit
    · exact e

end Sys2Proof.Machine
end

section
/-! Proofs that genuine keys keep one held key path (10_state.md R32): step 1 of a genuine new key releases the held path, after which
no key cell is set, and steps 2 to 4 then register at most one. -/

namespace Sys2Proof.Machine

open Config

/-! ### No key held -/

/-- No cell of the ASCII region and no extended bit is set, and the session says so (R32). -/
structure Interp.NoKey (k : Interp) : Prop where
  notExt : k.ses.extActive = false
  ascii_clear : ∀ c : Byte, cell k.M (asciiRow c) (asciiCol c) = false
  ext_clear : ∀ e : Fin 10, cell k.M modRow (extCol e) = false

theorem isExtCell_extCol {e e' : Fin 10} : isExtCell e modRow (extCol e') ↔ e' = e :=
  ⟨fun h => extCol_injective h.2, fun h => ⟨rfl, h ▸ rfl⟩⟩

theorem isCellOf_asciiCell {c c' : Byte} : isCellOf c (asciiRow c') (asciiCol c') ↔ c' = c :=
  ⟨fun h => asciiCell_injective h.1 h.2, fun h => ⟨h ▸ rfl, h ▸ rfl⟩⟩

theorem not_isExtCell_asciiRow (e : Fin 10) (c : Byte) (col : Fin 16) : ¬ isExtCell e (asciiRow c) col :=
  fun h => asciiRow_ne_modRow c h.1

theorem not_isCellOf_modRow (c : Byte) (col : Fin 16) : ¬ isCellOf c modRow col :=
  fun h => asciiRow_ne_modRow c h.1.symm

/-- Step 1 of a genuine new key releases the held key path (R153). -/
theorem Interp.OneKeyPath.clearPrevious {k : Interp} (path : k.OneKeyPath) {st : Byte} (genuine : isRepeat st = false) :
    (clearPrevious st k).NoKey where
  notExt := by rw [clearPrevious_extActive, genuine, Bool.false_and]
  ascii_clear c := by
    rw [← Bool.not_eq_true, cell_clearPrevious_iff]
    rintro ⟨set, notCleared⟩
    cases ext : k.ses.extActive with
    | true => simp [path.ext_path ext c] at set
    | false => exact notCleared ⟨genuine, by simp [ext, isCellOf_asciiCell, path.ascii_path ext c set]⟩
  ext_clear e := by
    rw [← Bool.not_eq_true, cell_clearPrevious_iff]
    rintro ⟨set, notCleared⟩
    cases ext : k.ses.extActive with
    | true => exact notCleared ⟨genuine, by simp [ext]; omega⟩
    | false => simp [path.no_ext ext e] at set

/-! ### What is registered when no key is held -/

section
variable {k : Interp}

theorem Interp.NoKey.oneKeyPath (none : k.NoKey) : k.OneKeyPath where
  ascii_path _ c set := by simp [none.ascii_clear c] at set
  no_ext _ := none.ext_clear
  ext_path _ := none.ascii_clear
  one_ext e _ set := by simp [none.ext_clear e] at set

theorem Interp.NoKey.registerAscii (none : k.NoKey) (f : Byte) : (registerAscii f k).OneKeyPath := by
  have ascii (c : Byte) : cell (setAscii f k.M) (asciiRow c) (asciiCol c) = true ↔ c = f := by
    simp [cell_setAscii_iff, isCellOf_asciiCell, none.ascii_clear c]
  have ext (e : Fin 10) : cell (setAscii f k.M) modRow (extCol e) = false := by
    rw [← Bool.not_eq_true, cell_setAscii_iff]
    simp [not_isCellOf_modRow, none.ext_clear e]
  exact ⟨fun _ c set => (ascii c).mp set, fun _ => ext, fun active => by simp [none.notExt] at active,
    fun e _ set => by simp [ext e] at set⟩

theorem Interp.NoKey.registerExt (none : k.NoKey) (x : Fin 10) : (registerExt x k).OneKeyPath := by
  have ascii (c : Byte) : cell (setExt x k.M) (asciiRow c) (asciiCol c) = false := by
    rw [← Bool.not_eq_true, cell_setExt_iff]
    simp [not_isExtCell_asciiRow, none.ascii_clear c]
  have ext (e : Fin 10) : cell (setExt x k.M) modRow (extCol e) = true ↔ e = x := by
    simp [cell_setExt_iff, isExtCell_extCol, none.ext_clear e]
  exact ⟨nofun, nofun, fun _ => ascii, fun e e' set set' => ((ext e).mp set).trans ((ext e').mp set').symm⟩

theorem Interp.NoKey.branch (none : k.NoKey) (t : Tables) (st c0 : Byte) : (branch t st c0 k).OneKeyPath := by
  obtain ⟨ses, isSes, ending⟩ := branch_cases t st c0 k
  have none : ({ k with ses := ses } : Interp).NoKey := by
    obtain rfl | ⟨rfl, -⟩ := isSes <;> exact ⟨none.notExt, none.ascii_clear, none.ext_clear⟩
  obtain ⟨f, e⟩ | ⟨x, e⟩ | e := ending <;> rw [e]
  · exact none.registerAscii f
  · exact none.registerExt x
  · exact none.oneKeyPath

end

/-! ### The rest of a packet writes no key cell -/

/-- The key path is a matter of the key cells, the flag and the last code. -/
theorem Interp.OneKeyPath.congr {k k' : Interp} (path : k.OneKeyPath) (ext : k'.ses.extActive = k.ses.extActive)
    (last : k'.ses.lastAscii = k.ses.lastAscii) (cells : ∀ r c, keyCell r c → cell k'.M r c = cell k.M r c) :
    k'.OneKeyPath := by
  have ascii (c : Byte) := cells _ _ (keyCell_of_isCellOf (isCellOf_asciiCell.mpr (Eq.refl c)))
  have extended (e : Fin 10) := cells _ _ (keyCell_of_isExtCell (isExtCell_extCol.mpr (Eq.refl e)))
  constructor <;> simp only [ext, last, ascii, extended]
  exacts [path.ascii_path, path.no_ext, path.ext_path, path.one_ext]

theorem Interp.OneKeyPath.registerMods {k : Interp} (path : k.OneKeyPath) (st : Byte) : (registerMods st k).OneKeyPath := by
  refine path.congr rfl rfl fun r c key => (cell_setMods ..).trans (if_neg ?_)
  rintro ⟨rfl, modifier⟩
  obtain low | ⟨-, high, -⟩ := key
  · exact absurd low (by decide)
  · omega

theorem Interp.OneKeyPath.modeB {k : Interp} (path : k.OneKeyPath) (g : GameKeys) : (modeB g k).OneKeyPath := by
  refine path.congr rfl rfl fun r c key => ?_
  have row := row_le_of_keyCell key
  exact cell_modeB_other (by rintro rfl; simp at row) (by rintro rfl; simp at row) g k c

theorem Interp.OneKeyPath.handle {k : Interp} (path : k.OneKeyPath) (t : Tables) {p : Packet} (genuine : p.genuine) :
    (handle t p k).OneKeyPath := by
  cases mode : p.isModeB with
  | true => exact handle_of_isModeB t mode k ▸ path.modeB p.gameKeys
  | false =>
    have newKey : isRepeat p.status = false := genuine.resolve_left (by simp [mode])
    rw [handle_of_not_isModeB t mode]
    exact ((path.clearPrevious newKey).branch t p.status p.ascii).registerMods p.status

theorem oneKeyPath_reset : (⟨Session.reset, Matrix.reset⟩ : Interp).OneKeyPath :=
  Interp.NoKey.oneKeyPath ⟨rfl, fun _ => cell_reset .., fun _ => cell_reset ..⟩

theorem handledPacket_setPending (i : Instr) (s : State) (ps : List Offer) :
    handledPacket i (s.setPending ps) = handledPacket i s := by cases i <;> rfl

/-! ### The statements -/

/-- Settles O58: a packet handled is genuine, so it keeps one key path; INIT holds no key, and nothing else writes the
interpreter. -/
theorem genuineKeysKeepOneKeyPath : Obligations.GenuineKeysKeepOneKeyPath := by
  intro s t path genuine h
  obtain ⟨-, -, interp, -⟩ | ⟨o, rest, i, offered, decoded, h⟩ := step_keeps_or_execs h
  · exact interp ▸ path
  · obtain ⟨-, -, e⟩ | ⟨-, p, handled, e⟩ | ⟨-, -, e⟩ := exec_interp_cases h <;> rw [e]
    · exact oneKeyPath_reset
    · rw [handledPacket_setPending] at handled
      exact path.handle s.cfg.tables (genuine o rest i p offered decoded handled)
    · exact path

/-- Settles O59: at reset no key is held. -/
theorem oneKeyPathHoldsAtReset : Obligations.OneKeyPathHoldsAtReset := oneKeyPath_reset

end Sys2Proof.Machine
end

section
/-! Proofs about the operation words read the other way (30_encoding.md R70-R81): a word that decodes is put together again from its
fields, the words refused are those whose fixed bits are not as their format has them, and a word's number is the sum of its
fields. -/

namespace Sys2Proof

open Machine (ofBool_getLsbD)

/-! ### The fields of a word, joined (R70-R77) -/

theorem bitOfPolarity_polarityOfBit (r : Bool) : bitOfPolarity (polarityOfBit r) = r := by cases r <;> rfl

/-- An opcode and the zeros below it are the word's top field. -/
theorem opcode_append_zeros {w : OpWord} {op : BitVec 4} {lo n : Nat} (opcode : opcodeOf w = op)
    (fixed : w.extractLsb' lo n = 0#n) (adjoin : 36 = lo + n) : op ++ 0#n = w.extractLsb' lo (4 + n) := by
  rw [← opcode, ← fixed, opcodeOf, BitVec.extractLsb'_append_extractLsb'_eq_extractLsb' adjoin]

theorem encode_edge_fields {w : OpWord} (opcode : opcodeOf w = 0x1#4) (fixed : w.extractLsb' 33 3 = 0#3) :
    encode (.edge (polarityOfBit (w.getLsbD 32)) (w.extractLsb' 0 32)) = w := by
  rw [encode, bitOfPolarity_polarityOfBit, ofBool_getLsbD, opcode_append_zeros opcode fixed rfl,
    BitVec.extractLsb'_append_extractLsb'_eq_extractLsb' (by decide), BitVec.extractLsb'_append_extractLsb'_eq_extractLsb' (by decide)]
  exact BitVec.extractLsb'_eq_self

theorem encode_readRow_fields {w : OpWord} (opcode : opcodeOf w = 0x3#4) (fixed : w.extractLsb' 5 31 = 0#31) :
    encode (.readRow (w.extractLsb' 0 5)) = w := by
  rw [encode, opcode_append_zeros opcode fixed rfl, BitVec.extractLsb'_append_extractLsb'_eq_extractLsb' (by decide)]
  exact BitVec.extractLsb'_eq_self

theorem encode_handleA_fields {w : OpWord} (opcode : opcodeOf w = 0x5#4) (fixed : w.extractLsb' 16 20 = 0#20) :
    encode (.handleA (w.extractLsb' 8 8) (w.extractLsb' 0 8)) = w := by
  rw [encode, opcode_append_zeros opcode fixed rfl, BitVec.extractLsb'_append_extractLsb'_eq_extractLsb' (by decide),
    BitVec.extractLsb'_append_extractLsb'_eq_extractLsb' (by decide)]
  exact BitVec.extractLsb'_eq_self

theorem encode_handleB_fields {w : OpWord} (opcode : opcodeOf w = 0x6#4) (fixed : w.extractLsb' 24 12 = 0#12) :
    encode (.handleB (w.extractLsb' 0 24)) = w := by
  rw [encode, opcode_append_zeros opcode fixed rfl, BitVec.extractLsb'_append_extractLsb'_eq_extractLsb' (by decide)]
  exact BitVec.extractLsb'_eq_self

/-- Settles O3: each format's decoder takes the opcode and the zeros it finds for granted and reads the other fields, so that the
fields of its answer are all the fields of the word. -/
theorem encodeOfDecodeIsTheWord : Obligations.EncodeOfDecodeIsTheWord := by
  intro w i h
  unfold decode at h
  split_ifs at h with edge poll readRow init handleA handleB
  · obtain ⟨fixed, rfl⟩ := ok_of_guard h
    exact encode_edge_fields edge fixed
  · obtain ⟨fixed, rfl⟩ := ok_of_guard h
    exact (opcode_append_zeros poll fixed rfl).trans BitVec.extractLsb'_eq_self
  · obtain ⟨fixed, rfl⟩ := ok_of_guard h
    exact encode_readRow_fields readRow fixed
  · obtain ⟨fixed, rfl⟩ := ok_of_guard h
    exact (opcode_append_zeros init fixed rfl).trans BitVec.extractLsb'_eq_self
  · obtain ⟨fixed, rfl⟩ := ok_of_guard h
    exact encode_handleA_fields handleA fixed
  · obtain ⟨fixed, rfl⟩ := ok_of_guard h
    exact encode_handleB_fields handleB fixed

/-! ### The ill-formed words (R78) -/

/-- Every format's decoder refuses a word for its fixed bits alone. -/
theorem error_of_guard {c : Prop} [Decidable c] {i : Instr} {e : IllFormed} :
    (∃ e', (if c then Except.ok i else Except.error e) = .error e') ↔ ¬ c := by
  by_cases h : c <;> simp [h]

theorem extract_ne_zero_iff {n : Nat} (w : BitVec n) (lo len : Nat) :
    ¬ w.extractLsb' lo (len + 1) = 0 ↔ ∃ k, lo ≤ k ∧ k ≤ lo + len ∧ w.getLsbD k = true := by
  constructor
  · intro nonzero
    by_contra clear
    push Not at clear
    refine nonzero (BitVec.eq_of_getLsbD_eq fun j hj => ?_)
    simpa [hj] using clear (lo + j) (by omega) (by omega)
  · rintro ⟨k, low, high, set⟩ zero
    have bit := congrArg (·.getLsbD (k - lo)) zero
    simp [show k - lo < len + 1 by omega, show lo + (k - lo) = k by omega, set] at bit

theorem decode_reserved {w : OpWord} (h : opcodeOf w = 0 ∨ 7 ≤ opcodeOf w) : decode w = .error .reservedOpcode := by
  have other : ∀ op : BitVec 4, op = 0 ∨ 7 ≤ op → op ≠ 1 ∧ op ≠ 2 ∧ op ≠ 3 ∧ op ≠ 4 ∧ op ≠ 5 ∧ op ≠ 6 := by decide
  obtain ⟨h1, h2, h3, h4, h5, h6⟩ := other _ h
  rw [decode, if_neg h1, if_neg h2, if_neg h3, if_neg h4, if_neg h5, if_neg h6]

theorem opcode_cases : ∀ op : BitVec 4, (op = 0 ∨ 7 ≤ op) ∨ op = 1 ∨ op = 2 ∨ op = 3 ∨ op = 4 ∨ op = 5 ∨ op = 6 := by decide

/-- Settles O4: by the opcode, which is reserved or selects the format whose fixed bits decide. -/
theorem wordIsRefusedExactlyWhenIllFormed : Obligations.WordIsRefusedExactlyWhenIllFormed := by
  intro w
  change _ ↔ opcodeOf w = 0 ∨ 7 ≤ opcodeOf w ∨ (opcodeOf w = 1 ∧ _) ∨ (opcodeOf w = 2 ∧ _) ∨ (opcodeOf w = 3 ∧ _) ∨
    (opcodeOf w = 4 ∧ _) ∨ (opcodeOf w = 5 ∧ _) ∨ (opcodeOf w = 6 ∧ _)
  obtain reserved | edge | poll | readRow | init | handleA | handleB := opcode_cases (opcodeOf w)
  · exact iff_of_true ⟨_, decode_reserved reserved⟩ (or_assoc.mp (.inl reserved))
  · rw [decode_eq_decodeEdge edge, decodeEdge, error_of_guard, extract_ne_zero_iff w 33 2]
    simp [edge]
  · rw [decode_eq_decodePoll poll, decodePoll, error_of_guard, extract_ne_zero_iff w 0 35]
    simp [poll]
  · rw [decode_eq_decodeReadRow readRow, decodeReadRow, error_of_guard, extract_ne_zero_iff w 5 30]
    simp [readRow]
  · rw [decode_eq_decodeInit init, decodeInit, error_of_guard, extract_ne_zero_iff w 0 35]
    simp [init]
  · rw [decode_eq_decodeHandleA handleA, decodeHandleA, error_of_guard, extract_ne_zero_iff w 16 19]
    simp [handleA]
  · rw [decode_eq_decodeHandleB handleB, decodeHandleB, error_of_guard, extract_ne_zero_iff w 24 11]
    simp [handleB]

/-! ### Words as numbers (R81) -/

theorem toNat_append_eq_add {n m : Nat} (x : BitVec n) (y : BitVec m) : (x ++ y).toNat = x.toNat * 2 ^ m + y.toNat := by
  rw [BitVec.toNat_append, ← Nat.shiftLeft_add_eq_or_of_lt y.isLt, Nat.shiftLeft_eq]

/-- Settles O6: the number of a concatenation is a sum, and all fields but the operands are constants. -/
theorem encodedWordHasTheAssemblerValue : Obligations.EncodedWordHasTheAssemblerValue := by
  refine ⟨fun t => ?_, fun t => ?_, by decide, fun i => ?_, by decide, fun st a => ?_, fun g => ?_⟩
  · exact toNat_append_eq_add (0x1#4 ++ 0#3 ++ 0#1) t
  · exact toNat_append_eq_add (0x1#4 ++ 0#3 ++ 1#1) t
  · exact toNat_append_eq_add (0x3#4 ++ 0#31) i
  · have status := toNat_append_eq_add (0x5#4 ++ 0#20) st
    have word := toNat_append_eq_add (0x5#4 ++ 0#20 ++ st) a
    rw [status] at word
    change _ = (0x500000 * 2 ^ 8 + st.toNat) * 2 ^ 8 + a.toNat at word
    exact word.trans (by omega)
  · exact toNat_append_eq_add (0x6#4 ++ 0#12) g

/-- Settles O1: the decoder computes each of the seven words. -/
theorem decodesWordsWrittenFromTheFormats : Obligations.DecodesWordsWrittenFromTheFormats :=
  ⟨rfl, rfl, rfl, rfl, rfl, rfl, rfl⟩

end Sys2Proof
end

section
/-! Proofs about several EDGEs (40_decoder.md R100, R108) and the agents' operations in either order (20_memory.md R55). -/

namespace Sys2Proof.Machine

open Config

/-! ### The polarity armed after an edge (R100) -/

@[simp] theorem headerLow_armed (w : Windows) (t : Ticks) (d : Decoder) : (headerLow w t d).armed = d.armed := by
  obtain ⟨m, e⟩ | e := headerLow_cases w t d <;> rw [e]
  rfl

@[simp] theorem highSample_armed (w : Windows) (m : Mode) (t : Ticks) (d : Decoder) : (highSample w m t d).armed = d.armed := by
  obtain e | ⟨-, b, e⟩ | e := highSample_cases w m t d <;> rw [e] <;> rfl

@[simp] theorem lowSample_armed (w : Windows) (m : Mode) (t : Ticks) (d : Decoder) : (lowSample w m t d).1.armed = d.armed := by
  obtain e | ⟨-, e⟩ := lowSample_cases w m t d <;> rw [e]
  rfl

theorem eq_opposite_of_ne {p q : Polarity} (h : p ≠ q) : q = opposite p := by
  cases p <;> cases q <;> simp_all [opposite]

/-- Captured or ignored, an edge leaves the opposite polarity armed. -/
theorem onEdge_armed (w : Windows) (pol : Polarity) (t : Ticks) (d : Decoder) : (onEdge w pol t d).1.armed = opposite pol := by
  obtain ⟨unarmed, e⟩ | ⟨rfl, -, -, e⟩ | ⟨rfl, -, -, e⟩ | ⟨m, rfl, -, -, e⟩ | ⟨m, rfl, -, -, e⟩ :=
    onEdge_cases w pol t d <;> rw [e]
  · exact eq_opposite_of_ne unarmed
  · rfl
  · exact headerLow_armed ..
  · exact highSample_armed ..
  · exact lowSample_armed ..

/-- Settles O15: the transition ignores the edge and answers no packet. -/
theorem edgeOfUnarmedPolarityIsIgnored : Obligations.EdgeOfUnarmedPolarityIsIgnored :=
  fun s _ t unarmed => exec_edge_of_no_packet (onEdge_unarmed s.cfg.windows t unarmed)

/-- Settles O16: after an edge its own polarity is not armed, so a second one is ignored. -/
theorem capturedEdgesStrictlyAlternate : Obligations.CapturedEdgesStrictlyAlternate := by
  intro s pol t t'
  have armed := onEdge_armed s.cfg.windows pol t s.dec
  refine ⟨_, execEdge_eq pol t s, armed, edgeOfUnarmedPolarityIsIgnored _ pol t' ?_⟩
  exact fun again => opposite_ne pol (armed.symm.trans again.symm)

/-! ### Idle without a header (R108 (a)) -/

/-- In Idle an edge without a header completes nothing and stays in Idle (R101, R102). -/
theorem onEdge_of_idle {w : Windows} {pol : Polarity} {t : Ticks} {d : Decoder} (idle : d.phase = .idle)
    (noHeader : pol = .rising → inWindow t w.aHdrLow = false ∧ inWindow t w.bHdrLow = false) :
    ∃ d', onEdge w pol t d = (d', none) ∧ d'.phase = .idle := by
  obtain ⟨-, e⟩ | ⟨-, -, -, e⟩ | ⟨rising, -, -, e⟩ | ⟨m, -, -, phase, -⟩ | ⟨m, -, -, phase, -⟩ := onEdge_cases w pol t d
  · exact ⟨_, e, idle⟩
  · exact ⟨_, e, idle⟩
  · obtain ⟨notA, notB⟩ := noHeader rising
    rw [headerLow, notA, notB] at e
    exact ⟨_, e, idle⟩
  · exact absurd (phase.symm.trans idle) (receiving_ne_idle m)
  · exact absurd (phase.symm.trans idle) (receiving_ne_idle m)

/-- Settles O23: by induction on the edges; each leaves the decoder in Idle and writes nothing else but the returned value. -/
theorem edgesWithoutAHeaderEmitNoPacket : Obligations.EdgesWithoutAHeaderEmitNoPacket := by
  intro s edges idle noHeader
  induction edges generalizing s with
  | nil => exact ⟨s, rfl, idle, rfl, rfl, rfl⟩
  | cons e edges ih =>
    obtain ⟨pol, t⟩ := e
    obtain ⟨d, edge, idle'⟩ := onEdge_of_idle (w := s.cfg.windows) (pol := pol) (t := t) idle
      (fun rising => noHeader t (by simp [rising]))
    obtain ⟨s', run, rest⟩ := ih (s.afterEdge d) idle' fun t' mem => noHeader t' (List.mem_cons_of_mem _ mem)
    exact ⟨s', (execAll_cons (exec_edge_of_no_packet edge) _).trans run, rest⟩

/-! ### Either order (R55) -/

theorem execAll_pair {i j : Instr} {s t u : State} (first : exec i s = .next t) (second : exec j t = .next u) :
    execAll [i, j] s = .next u :=
  (execAll_cons first [j]).trans (execAll_cons second [])

theorem onEdge_no_packet_of_notFull {w : Windows} {pol : Polarity} {t : Ticks} {d : Decoder}
    (notFull : ∀ m, d.phase = receiving m → d.bitcnt ≠ frameLen m) : (onEdge w pol t d).2 = none := by
  cases answer : (onEdge w pol t d).2 with
  | none => rfl
  | some p =>
    obtain ⟨m, -, -, phase, -, full, -⟩ := onEdge_packet answer
    exact absurd full (notFull m phase)

/-- Settles O60: EDGE reads and writes nothing that READ_ROW or HANDLE does; without a packet it leaves the mailbox to POLL. -/
theorem agentsMeetOnlyInTheMailbox : Obligations.AgentsMeetOnlyInTheMailbox := by
  rintro s pol t i (⟨r, rfl⟩ | ⟨st, a, rfl⟩ | ⟨g, rfl⟩ | ⟨rfl, notFull⟩)
  iterate 3 exact ⟨_, _, execAll_pair rfl rfl, execAll_pair rfl rfl, rfl, rfl, rfl, rfl, rfl, rfl, rfl⟩
  · have edge (s' : State) (cfg : s'.cfg = s.cfg) (dec : s'.dec = s.dec) :
        exec (.edge pol t) s' = .next (s'.afterEdge (onEdge s.cfg.windows pol t s.dec).1) :=
      exec_edge_of_no_packet (by rw [cfg, dec, ← onEdge_no_packet_of_notFull notFull])
    cases ready : s.mbx.ready with
    | true => exact ⟨_, _, execAll_pair (edge s rfl rfl) (execPoll_ready ready), execAll_pair (execPoll_ready ready) (edge _ rfl rfl),
        rfl, rfl, rfl, rfl, rfl, rfl, rfl⟩
    | false => exact ⟨_, _, execAll_pair (edge s rfl rfl) (execPoll_empty ready), execAll_pair (execPoll_empty ready) (edge _ rfl rfl),
        rfl, rfl, rfl, rfl, rfl, rfl, rfl⟩

end Sys2Proof.Machine
end

section
/-! Proofs about frames (40_decoder.md R108 (b), (c), (e), 30_encoding.md R82, R83, R87, 70_reset_and_hazards.md R253): what a conforming
frame and one with a misplaced header high leave, that the nominal frames conform, and how short a conforming frame can be. -/

namespace Sys2Proof.Machine

open Config

/-! ### Conforming frames (R108 (b), (c)) -/

/-- Settles O24: up to the last edge nothing is published; then the packet of the transmitted bytes is. -/
theorem conformingModeAFrameIsPublished : Obligations.ConformingModeAFrameIsPublished := by
  intro s st a f idle armed conforming disjoint conforms
  have frame := execAll_frame (m := .a) idle armed conforming disjoint rfl conforms
  rw [assemble_bitsA] at frame
  exact ⟨_, _, execAll_frame_dropLast (m := .a) idle armed conforming disjoint rfl conforms, rfl, frame, rfl, rfl, rfl, rfl⟩

theorem assemble_bitsB (g : GameKeys) : assemble .b (bitsValue (bitsB g)) = packetB g := by
  rw [bitsB, bitsValue_bitsMsbFirst, BitVec.setWidth_eq, assemble]

/-- Settles O25: as in Mode A, with the packet of the transmitted game keys. -/
theorem conformingModeBFrameIsPublished : Obligations.ConformingModeBFrameIsPublished := by
  intro s g f idle armed conforming disjoint conforms
  have frame := execAll_frame (m := .b) idle armed conforming disjoint rfl conforms
  rw [assemble_bitsB] at frame
  exact ⟨_, _, execAll_frame_dropLast (m := .b) idle armed conforming disjoint rfl conforms, rfl, frame, rfl, rfl, rfl, rfl⟩

/-! ### A header high in a bit window (R108 (e)) -/

theorem bitsConform_concat {w : Windows} {m : Mode} {bs : List Bool} {b : Bool} {xs : List BitTimes}
    (h : bitsConform w m (bs ++ [b]) xs = true) :
    ∃ xs' x, xs = xs' ++ [x] ∧ bitsConform w m bs xs' = true ∧ x.conforms w m b = true := by
  induction bs generalizing xs with
  | nil =>
    match xs with
    | [] => cases h
    | [x] => exact ⟨[], x, rfl, rfl, ((Bool.and_eq_true _ _).mp h).1⟩
    | x :: y :: xs => exact absurd ((Bool.and_eq_true _ _).mp h).2 nofun
  | cons b' bs ih =>
    match xs with
    | [] => cases h
    | x :: xs =>
      obtain ⟨first, rest⟩ := (Bool.and_eq_true _ _).mp h
      obtain ⟨xs', y, rfl, others, last⟩ := ih rest
      exact ⟨x :: xs', y, rfl, (Bool.and_eq_true _ _).mpr ⟨first, others⟩, last⟩

/-- The edges of a frame before its bits (30_encoding.md R84). -/
def FrameTimes.header (f : FrameTimes) : List Instr :=
  [.edge .falling f.start, .edge .rising f.headLow, .edge .falling f.headHigh]

section
variable {s : State} {m : Mode} {b : Bool} {bs : List Bool} {f : FrameTimes} {xs : List BitTimes} {x : BitTimes}

/-- The three edges of a header whose high time lies in a bit window: the bit is taken into the frame (R102, R103). -/
theorem execAll_header_bit (idle : s.dec.phase = .idle) (armed : s.dec.armed = .falling)
    (conforming : s.cfg.windows.conforming = true)
    (disjoint : (bit0High s.cfg.windows m).disjoint (bit1High s.cfg.windows m) = true)
    (headLow : inWindow f.headLow (hdrLow s.cfg.windows m) = true)
    (noHeader : inWindow f.headHigh (hdrHigh s.cfg.windows m) = false)
    (bit : inWindow f.headHigh (bitHigh s.cfg.windows m b) = true) :
    execAll f.header s = .next (s.afterEdge (inFrame m [b])) := by
  have start := onEdge_idleFall s.cfg.windows f.start armed idle
  have low : onEdge s.cfg.windows .rising f.headLow { s.dec with armed := .rising } =
      (acceptHeader m { s.dec with armed := .falling }, none) :=
    (onEdge_headerLow (d := { s.dec with armed := .rising }) _ _ rfl idle).trans
      (congrArg (·, none) (headerLow_of_hdrLow conforming headLow _))
  have room : 0 < frameLen m := by cases m <;> decide
  have shifted : highSample s.cfg.windows m f.headHigh (acceptHeader m { s.dec with armed := .rising }) = inFrame m [b] := by
    rw [highSample_bit disjoint (by simp [noHeader]) room bit]
    exact congrArg (fun d => { d with hdrHiOk := false }) (shiftIn_inFrame m [] b)
  have high : onEdge s.cfg.windows .falling f.headHigh (acceptHeader m { s.dec with armed := .falling }) =
      (inFrame m [b], none) :=
    (onEdge_highSample _ _ rfl rfl).trans (congrArg (·, none) shifted)
  exact (execAll_cons (exec_edge_of_no_packet start) _).trans
    ((execAll_cons (exec_edge_afterEdge low) _).trans (execAll_cons (exec_edge_afterEdge high) _))

/-- A frame with one more bit pair, its edges up to that pair and the three after. -/
theorem FrameTimes.edges_concat (h : f.bits = xs ++ [x]) :
    f.edges = (f.header ++ xs.flatMap BitTimes.edges) ++
      [Instr.edge .rising x.low, Instr.edge .falling x.high, Instr.edge .rising f.last] := by
  simp [FrameTimes.edges, FrameTimes.header, h, BitTimes.edges]

theorem take_length_sub_three {α : Type} (l : List α) (x y z : α) :
    (l ++ [x, y, z]).take ((l ++ [x, y, z]).length - 3) = l := by simp

theorem take_length_sub_two {α : Type} (l : List α) (x y z : α) :
    (l ++ [x, y, z]).take ((l ++ [x, y, z]).length - 2) = l ++ [x] := by
  simp [List.take_append]

/-- A valid low time at a full frame publishes its packet (R105). -/
theorem exec_edge_completes {low : Ticks} (full : bs.length = (frameLen m).toNat)
    (valid : inWindow low s.cfg.windows.bitLow = true) :
    exec (.edge .rising low) (s.afterEdge (inFrame m bs)) =
      .next { s with dec := Decoder.reset, mbx := ⟨true, assemble m (bitsValue bs)⟩, output := .nothing } := by
  have bitcnt : (inFrame m bs).bitcnt = frameLen m := by rw [inFrame, full, BitVec.ofNat_toNat, BitVec.setWidth_eq]
  exact exec_edge_of_packet (s := s.afterEdge (inFrame m bs))
    ((onEdge_lowSample (d := inFrame m bs) _ _ rfl rfl).trans (lowSample_complete valid bitcnt))

/-- A high time and then a low time that is no header leave a decoder in reset as it was (R101, R102). -/
theorem execAll_reset_no_header {high low : Ticks} (dec : s.dec = Decoder.reset)
    (notA : inWindow low s.cfg.windows.aHdrLow = false) (notB : inWindow low s.cfg.windows.bHdrLow = false) :
    execAll [.edge .falling high, .edge .rising low] s = .next (s.afterEdge Decoder.reset) := by
  have fall : onEdge s.cfg.windows .falling high s.dec = ({ Decoder.reset with armed := .rising }, none) := by
    rw [dec]
    exact onEdge_idleFall _ _ rfl rfl
  have rise : onEdge s.cfg.windows .rising low { Decoder.reset with armed := .rising } = (Decoder.reset, none) := by
    rw [onEdge_headerLow _ _ rfl rfl, headerLow, notA, notB]
    rfl
  exact execAll_pair (exec_edge_of_no_packet fall) (exec_edge_afterEdge rise)

end

/-- Settles O26: the header's bit and all bits but the last fill the frame; the low time of the last pair completes it, and the two
edges after it find the decoder in Idle. -/
theorem headerHighInABitWindowIsAnExtraLeadingBit : Obligations.HeaderHighInABitWindowIsAnExtraLeadingBit := by
  intro s m b bs f idle armed conforming disjoint length headLow noHeader bit bits lastLow notA notB
  obtain ⟨bs, b', rfl⟩ : ∃ bs' b', bs = bs' ++ [b'] := by
    obtain rfl | concat := List.eq_nil_or_concat' bs
    · cases m <;> cases length
    · exact concat
  obtain ⟨xs, x, isConcat, others, last⟩ := bitsConform_concat bits
  obtain ⟨low, -⟩ := (Bool.and_eq_true _ _).mp last
  rw [List.length_append, List.length_singleton] at length
  have header := execAll_header_bit idle armed conforming disjoint headLow noHeader bit
  have before := (execAll_append header _).trans (execAll_bits disjoint [b] (by simp; omega) others)
  have early := exec_edge_completes (s := s) (bs := b :: bs) length low
  have after := (execAll_cons early _).trans
    (execAll_reset_no_header (high := x.high) rfl notA notB)
  rw [FrameTimes.edges_concat isConcat, take_length_sub_three, take_length_sub_two, List.dropLast_concat]
  exact ⟨_, _, _, before, rfl, (execAll_append before _).trans (execAll_cons early []), rfl, rfl,
    (execAll_append before _).trans after, rfl, rfl⟩

/-! ### The nominal frames (R82, R83) -/

theorem nominalBit_conforms (m : Mode) (b : Bool) : (nominalBit m b).conforms defaultWindows m b = true := by
  cases m <;> cases b <;> decide

theorem bitsConform_nominal (m : Mode) (bs : List Bool) : bitsConform defaultWindows m bs (bs.map (nominalBit m)) = true := by
  induction bs with
  | nil => rfl
  | cons b bs ih => exact (Bool.and_eq_true _ _).mpr ⟨nominalBit_conforms m b, ih⟩

theorem nominalA_conforms (st a : Byte) (t0 : Ticks) : (nominalA st a t0).conforms defaultWindows .a (bitsA st a) = true := by
  rw [FrameTimes.conforms, nominalA, bitsConform_nominal]
  rfl

theorem nominalB_conforms (g : GameKeys) (t0 : Ticks) : (nominalB g t0).conforms defaultWindows .b (bitsB g) = true := by
  rw [FrameTimes.conforms, nominalB, bitsConform_nominal]
  rfl

/-- Settles O28: a nominal frame conforms bit by bit, and a conforming frame has two edges per bit and four more. -/
theorem pseudoOperationsExpandToConformingFrames : Obligations.PseudoOperationsExpandToConformingFrames :=
  fun st a g t0 => ⟨FrameTimes.edges_length (nominalA_conforms st a t0), FrameTimes.edges_length (nominalB_conforms g t0),
    nominalA_conforms st a t0, nominalB_conforms g t0⟩

/-! ### The shortest frames (R253) -/

theorem le_toNat_of_inWindow {t : Ticks} {w : Window} (h : inWindow t w = true) : w.lo.toNat ≤ t.toNat :=
  BitVec.le_def.mp (inWindow_iff.mp h).1

theorem le_bitsDuration {w : Windows} {m : Mode} {shortest : Nat}
    (bitBound : ∀ b x, BitTimes.conforms w m b x = true → shortest ≤ x.low.toNat + x.high.toNat) {bs : List Bool} {xs : List BitTimes}
    (conforms : bitsConform w m bs xs = true) :
    bs.length * shortest ≤ (xs.map fun x => x.low.toNat + x.high.toNat).sum := by
  induction bs generalizing xs with
  | nil => simp
  | cons b bs ih =>
    cases xs with
    | nil => cases conforms
    | cons x xs =>
      obtain ⟨bit, rest⟩ := (Bool.and_eq_true _ _).mp conforms
      have bit := bitBound b x bit
      have rest := ih rest
      simp only [List.length_cons, List.map_cons, List.sum_cons, Nat.succ_mul]
      omega

theorem le_duration {w : Windows} {m : Mode} {shortest : Nat}
    (bitBound : ∀ b x, BitTimes.conforms w m b x = true → shortest ≤ x.low.toNat + x.high.toNat) {bs : List Bool} {f : FrameTimes}
    (conforms : f.conforms w m bs = true) :
    (hdrLow w m).lo.toNat + (hdrHigh w m).lo.toNat + bs.length * shortest + w.bitLow.lo.toNat ≤ f.duration := by
  simp only [FrameTimes.conforms, Bool.and_eq_true] at conforms
  obtain ⟨⟨⟨headLow, headHigh⟩, bits⟩, last⟩ := conforms
  have := le_bitsDuration bitBound bits
  have := le_toNat_of_inWindow headLow
  have := le_toNat_of_inWindow headHigh
  have := le_toNat_of_inWindow last
  rw [FrameTimes.duration]
  omega

/-- With the default windows a bit is shortest as a 0 (R86). -/
theorem default_bit_bound (m : Mode) (b : Bool) (x : BitTimes) (h : x.conforms defaultWindows m b = true) :
    225 + (bit0High defaultWindows m).lo.toNat ≤ x.low.toNat + x.high.toNat := by
  obtain ⟨low, high⟩ := (Bool.and_eq_true _ _).mp h
  have shortest : (bit0High defaultWindows m).lo.toNat ≤ (bitHigh defaultWindows m b).lo.toNat := by
    cases m <;> cases b <;> decide
  exact Nat.add_le_add (le_toNat_of_inWindow low) (shortest.trans (le_toNat_of_inWindow high))

/-- Settles O29: the bounds are sums of the windows' ends, and the frames of 0 bits at those ends attain them. -/
theorem shortestConformingFrameDurations : Obligations.ShortestConformingFrameDurations := by
  refine ⟨fun bs f length conforms => ?_, ⟨List.replicate 16 false, ⟨0, 950, 675, List.replicate 16 ⟨225, 725⟩, 225⟩, by decide⟩,
    fun bs f length conforms => ?_, ⟨List.replicate 24 false, ⟨0, 375, 175, List.replicate 24 ⟨225, 225⟩, 225⟩, by decide⟩⟩
  · have bound := le_duration (default_bit_bound .a) conforms
    rw [length] at bound
    exact bound
  · have bound := le_duration (default_bit_bound .b) conforms
    rw [length] at bound
    exact bound

/-! ### The overlaps of the default windows (R87) -/

theorem inWindow_of_meeting_ends {t : Ticks} {v w : Window} (meet : v.hi = w.lo) (vOrdered : v.lo ≤ v.hi) (wOrdered : w.lo ≤ w.hi) :
    (inWindow t v = true ∧ inWindow t w = true) ↔ t = v.hi := by
  simp only [inWindow_iff]
  bv_omega

theorem not_both_of_disjoint {t : Ticks} {v w : Window} (disjoint : v.disjoint w = true) :
    ¬ (inWindow t v = true ∧ inWindow t w = true) := by
  rintro ⟨inv, inw⟩
  rw [not_inWindow_of_disjoint disjoint inw] at inv
  cases inv

/-- Settles O30: three pairs of windows are disjoint, and two meet in their ends. -/
theorem defaultWindowOverlaps : Obligations.DefaultWindowOverlaps := fun _ =>
  ⟨not_both_of_disjoint (by decide), not_both_of_disjoint (by decide), not_both_of_disjoint (by decide),
    inWindow_of_meeting_ends rfl (by decide) (by decide), inWindow_of_meeting_ends rfl (by decide) (by decide), rfl⟩

end Sys2Proof.Machine
end

section
/-! Proofs about HANDLE_A as a whole (42_interpreter.md R153-R169, 95_test_vectors.md EX-4 to EX-7): its frame cell by cell, the two paths
without arbitration, arbitration in Mode B, and a packet repeated. -/

namespace Sys2Proof.Machine

open Config

/-! ### The two paths without arbitration (R155, R159) -/

section
variable {t : Tables} {st c0 : Byte} {k : Interp}

theorem branch_tenkeyImage {r : Byte} (ten : tenkey st = true) (image : tenkeyMap t c0 = some r) :
    branch t st c0 k = registerAscii r k := by
  simp [branch, tenKey, ten, image]

theorem branch_ctrlCollision (path : TakesCtrlCollision st c0) :
    branch t st c0 k = registerAscii (if c0 = 0x03 then 0x43 else 0x52) k := by
  rw [branch, if_neg (by simp [path.1]), if_pos ((ctrlCollision_test path.1).mpr path), ctrlCollision]

end

/-- Settles O40: the path ends by registering the image. -/
theorem handleATenKeyRemapRegistersTheImage : Obligations.HandleATenKeyRemapRegistersTheImage :=
  fun s st c0 _ ten image => ⟨_, exec_handleA st c0 s, handleAndReport_onlyInterpChanged _ s,
    handleA_registerAscii (branch_tenkeyImage ten image) rfl (clearPrevious_ses st s.interp)⟩

/-- Settles O44: the path ends by registering the letter of the code. -/
theorem handleACtrlCollisionRegistersTheLetter : Obligations.HandleACtrlCollisionRegistersTheLetter := by
  intro s st c0 f notTen ctrl noShift letter
  have path : TakesCtrlCollision st c0 := ⟨notTen, ctrl, noShift, letter.imp And.left And.left⟩
  have isLetter : (if c0 = 0x03 then 0x43 else 0x52) = f := by obtain ⟨rfl, rfl⟩ | ⟨rfl, rfl⟩ := letter <;> rfl
  exact ⟨_, exec_handleA st c0 s, handleAndReport_onlyInterpChanged _ s,
    handleA_registerAscii (isLetter ▸ branch_ctrlCollision path) rfl (clearPrevious_ses st s.interp)⟩

/-! ### The frame, cell by cell -/

theorem cellsAfterModeA_handleA (s : State) (st c0 : Byte) :
    cellsAfterModeA st s (handleAndReport (packetA st c0) s) (Registers s.cfg.tables st c0 s.ses) :=
  cellsAfterModeA_of_branch rfl fun r c => by rw [cell_branch, registers_clearPrevious]; rfl

section
variable {st : Byte} {s t : State} {set : Fin 19 → Fin 16 → Prop} {r : Fin 19} {c : Fin 16}

theorem cellsAfterModeA_cell (cells : cellsAfterModeA st s t set) (noModifier : ¬ (r = modRow ∧ c.val < 5)) :
    cell t.M r c = true ↔ set r c ∨ (cell s.M r c = true ∧ ¬ clearedCell st s.ses r c) := by
  rw [cells r c, if_neg noModifier]

theorem cleared_of_cellsAfterModeA (cells : cellsAfterModeA st s t set) (before : cell s.M r c = true)
    (after : cell t.M r c = false) : clearedCell st s.ses r c ∨ (r = modRow ∧ c.val < 5) := by
  by_contra neither
  push Not at neither
  obtain ⟨kept, noModifier⟩ := neither
  have stays := (cellsAfterModeA_cell cells (by simpa using noModifier)).mpr (.inr ⟨before, kept⟩)
  simp [after] at stays

theorem set_of_cellsAfterModeA (cells : cellsAfterModeA st s t set) (noModifier : ¬ (r = modRow ∧ c.val < 5))
    (before : cell s.M r c = false) (after : cell t.M r c = true) : set r c :=
  ((cellsAfterModeA_cell cells noModifier).mp after).resolve_right fun ⟨was, _⟩ => by simp [before] at was

theorem asciiCell_noModifier (code : Byte) : ¬ (asciiRow code = modRow ∧ (asciiCol code).val < 5) :=
  fun h => asciiRow_ne_modRow code h.1

/-- The code a packet registers is set after it. -/
theorem cell_of_cellsAfterModeA_isCellOf {f : Byte} (cells : cellsAfterModeA st s t (isCellOf f)) :
    cell t.M (asciiRow f) (asciiCol f) = true :=
  (cellsAfterModeA_cell cells (asciiCell_noModifier f)).mpr (.inl ⟨rfl, rfl⟩)

/-- A suppressed packet sets no cell of the ASCII region. -/
theorem cell_of_cellsAfterModeA_noCell (cells : cellsAfterModeA st s t noCell) (code : Byte)
    (after : cell t.M (asciiRow code) (asciiCol code) = true) : cell s.M (asciiRow code) (asciiCol code) = true :=
  (((cellsAfterModeA_cell cells (asciiCell_noModifier code)).mp after).resolve_left id).1

end

/-- Settles O48: each cell is as steps 1 to 5 leave it, and only key cells and modifiers are touched. -/
theorem handleALeavesTheRestUnchanged : Obligations.HandleALeavesTheRestUnchanged := by
  intro s t st a h
  cases next_inj h
  have cells := cellsAfterModeA_handleA s st a
  exact ⟨handleAndReport_onlyInterpChanged _ s, modeA_snapshot s.cfg.tables st a s.interp,
    fun c => ⟨cell_modeA_gameKeyRow (by decide) c s.cfg.tables st a s.interp,
      cell_modeA_gameKeyRow (by decide) c s.cfg.tables st a s.interp⟩,
    cell_modeA_hardwired16 s.cfg.tables st a s.interp, cells,
    fun _ _ before after => cleared_of_cellsAfterModeA cells before after,
    fun _ _ noModifier before after => set_of_cellsAfterModeA cells noModifier before after⟩

/-! ### Arbitration in Mode B (R169) -/

section
variable {t : Tables} {st c : Byte} {ses : Session} {k : Fin 24}

theorem switchAccepted_iff_of_gameBit (game : gameBit t c = some k) : SwitchAccepted t st c ses ↔
    ses.snapshot.getLsbD k = false ∧ (c = 0x1B ∨ c = 0x0D ∨ c = 0x09 → ctrl st = true) := by
  simp [SwitchAccepted, game]

theorem heldInModeB_iff_of_gameBit (game : gameBit t c = some k) (modeB : ses.currentMode = .b) :
    HeldInModeB t c ses ↔ ses.snapshot.getLsbD k = true := by
  simp [HeldInModeB, game, modeB]

end

/-- Settles O49: the general path's three cases, with the key's game bit and the exception deciding between them. -/
theorem modeBArbitrationOfAnAmbiguousCode : Obligations.ModeBArbitrationOfAnAmbiguousCode := by
  intro s st key k modeB notTen noRemap noCollision game
  have isTentative : key = (if s.ses.currentMode = .b ∧ kana st = true ∧ 0xA0 ≤ key ∧ key ≤ 0xDF
      then kanaMap s.cfg.tables (((key - 0xA0) >>> 4).setWidth 2) (key.extractLsb' 0 4) else key) := by
    refine (if_neg ?_).symm
    rintro ⟨-, kana, low, high⟩
    obtain noKana | below | above := noRemap
    · simp [noKana] at kana
    · exact BitVec.not_lt.mpr low below
    · exact BitVec.not_lt.mpr high above
  obtain ⟨t, h, -, accepted, suppressed, kept⟩ := handleAGeneralPathArbitrates s st key key notTen noCollision isTentative
  obtain ⟨t', h', modifiers⟩ := handleAAssignsTheModifierCells.1 s st key
  cases next_inj (h.symm.trans h')
  rw [switchAccepted_iff_of_gameBit game] at accepted suppressed kept
  rw [heldInModeB_iff_of_gameBit game modeB] at suppressed kept
  refine ⟨t, h, fun clear switch => ?_, fun held => ?_, fun clear special noCtrl => ?_⟩
  · obtain ⟨cells, ses⟩ := accepted ⟨clear, fun special => switch.resolve_left fun plain => plain special⟩
    rw [ses]
    exact ⟨rfl, cell_of_cellsAfterModeA_isCellOf cells, rfl⟩
  · obtain ⟨cells, ses⟩ := suppressed (by simp [held]) held
    rw [ses]
    exact ⟨modeB, rfl, cell_of_cellsAfterModeA_noCell cells, modifiers⟩
  · obtain ⟨cells, ses⟩ := kept (fun ⟨_, needsCtrl⟩ => by simp [needsCtrl special] at noCtrl) (Bool.eq_false_iff.mp clear)
    rw [ses]
    exact ⟨modeB, cell_of_cellsAfterModeA_isCellOf cells, rfl⟩

/-! ### The images of the ten-key codes (EX-7) -/

theorem mem_of_tenkeyMap {t : Tables} {c r : Byte} (h : tenkeyMap t c = some r) : (c, r) ∈ t.tenkey := by
  obtain ⟨before, after, split, -⟩ := List.lookup_eq_some_iff.mp h
  rw [split]
  exact List.mem_append_right _ List.mem_cons_self

theorem mem_tenkeyCodes : ∀ c : Byte, 0x2A ≤ c → c ≤ 0x39 → c ∈ tenkeyCodes := by decide

/-- What R8 asks of TENKEY_MAP, read off its check. -/
theorem tenkeyMap_of_conforming {t : Tables} (conforming : t.conforming = true) :
    (∀ c ∈ tenkeyCodes, ∃ r, tenkeyMap t c = some r) ∧ (t.tenkey.map Prod.snd).Nodup ∧
      ∀ c r, tenkeyMap t c = some r → ¬ (0x30 ≤ r ∧ r ≤ 0x39) := by
  simp only [Tables.conforming, Tables.tenkeyOk, Bool.and_eq_true, decide_eq_true_iff, List.all_eq_true] at conforming
  obtain ⟨⟨-, ⟨⟨-, domain⟩, distinct⟩, noDigit⟩, -⟩ := conforming
  refine ⟨fun c code => ?_, distinct, fun c r image => ?_⟩
  · have mem : c ∈ keys t.tenkey := by simpa using domain c code
    obtain ⟨entry, inTable, rfl⟩ := List.mem_map.mp mem
    exact Option.isSome_iff_exists.mp (List.lookup_isSome_iff.mpr ⟨entry, inTable, beq_self_eq_true _⟩)
  · rintro ⟨low, high⟩
    have outside : r < 0x30 ∨ 0x39 < r := by simpa using noDigit r (List.mem_map_of_mem (mem_of_tenkeyMap image))
    exact outside.elim (BitVec.not_lt.mpr low) (BitVec.not_lt.mpr high)

/-- Settles O51: a code of the range has an image by R8; R8 keeps images apart from the digits and from each other, and a cell
determines its code. -/
theorem tenKeyImagesAreDistinctAndAvoidTheDigits : Obligations.TenKeyImagesAreDistinctAndAvoidTheDigits := by
  intro s st c conforming ten low high
  obtain ⟨domain, distinct, noDigit⟩ := tenkeyMap_of_conforming conforming
  obtain ⟨r, image⟩ := domain c (mem_tenkeyCodes c low high)
  obtain ⟨t, h, -, cells, ses⟩ := handleATenKeyRemapRegistersTheImage s st c r ten image
  refine ⟨r, t, image, h, by rw [ses], cell_of_cellsAfterModeA_isCellOf cells, fun d dLow dHigh same => ?_,
    fun c' r' other image' same => ?_⟩
  · rw [isCellOf_asciiCell.mp same] at image
    exact noDigit c d image ⟨dLow, dHigh⟩
  · have sameImage := isCellOf_asciiCell.mp same
    have sameEntry := List.inj_on_of_nodup_map distinct (mem_of_tenkeyMap image') (mem_of_tenkeyMap image) sameImage.symm
    exact other (congrArg Prod.fst sameEntry)

/-! ### A packet repeated (R168) -/

/-- The packet's status byte with the repeat bit asserted: every other bit is as it was. -/
def asRepeat (st : Byte) : Byte := st &&& 0xDF

theorem isRepeat_asRepeat (st : Byte) : isRepeat (asRepeat st) = true := by simp [isRepeat, asRepeat]

/-- Steps 2 to 4 read only bits of the status byte that a repeat keeps (R154-R161). -/
theorem branch_asRepeat (t : Tables) (st c0 : Byte) (k : Interp) : branch t (asRepeat st) c0 k = branch t st c0 k := by
  have keepsTenkey : tenkey (asRepeat st) = tenkey st := by simp [tenkey, asRepeat]
  have keepsCtrl : ctrl (asRepeat st) = ctrl st := by simp [ctrl, asRepeat]
  have keepsShift : shift (asRepeat st) = shift st := by simp [shift, asRepeat]
  have keepsKana : kana (asRepeat st) = kana st := by simp [kana, asRepeat]
  have keepsDetect (c : Byte) (ses : Session) : detect t (asRepeat st) c ses = detect t st c ses := by
    simp only [detect, keepsCtrl]
  have keepsTentative : tentative t (asRepeat st) c0 k.ses = tentative t st c0 k.ses := by
    simp only [tentative, keepsKana]
  have keepsTenKey : tenKey t (asRepeat st) c0 k = tenKey t st c0 k := by
    rw [tenKey, tenKey, numpadEnter, numpadEnter, keepsDetect]
  have keepsGeneral : general t (asRepeat st) c0 k = general t st c0 k := by
    rw [general, general, keepsTentative, keepsDetect]
  rw [branch, branch, keepsTenkey, keepsCtrl, keepsShift, keepsTenKey, keepsGeneral]

/-- So does step 5 (R165). -/
theorem setMods_asRepeat (st : Byte) (M : Matrix) : setMods (asRepeat st) M = setMods st M := by
  have keepsMods : ∀ st : Byte, (~~~ asRepeat st).setWidth 16 &&& modMask = (~~~ st).setWidth 16 &&& modMask := by decide
  rw [setMods, setMods, keepsMods]

theorem modeA_asRepeat (t : Tables) (st c0 : Byte) (k : Interp) :
    modeA t (asRepeat st) c0 k = registerMods st (branch t st c0 k) := by
  rw [modeA, clearPrevious_of_repeat (isRepeat_asRepeat st), branch_asRepeat, registerMods, setMods_asRepeat]
  rfl

/-! ### What is registered already is not registered again -/

/-- Registering the code of a state that has registered it and then the modifiers changes nothing, once the modifiers are
assigned again. -/
theorem registerMods_registerAscii_again (st f : Byte) (k : Interp) :
    registerMods st (registerAscii f (registerMods st (registerAscii f k))) = registerMods st (registerAscii f k) := by
  have same : setMods st (setAscii f (setMods st (setAscii f k.M))) = setMods st (setAscii f k.M) :=
    matrix_ext fun r c => by simp only [cell_setMods, cell_setAscii]; split_ifs <;> rfl
  exact congrArg (Interp.mk _) same

theorem registerMods_registerExt_again (st : Byte) (e : Fin 10) (k : Interp) :
    registerMods st (registerExt e (registerMods st (registerExt e k))) = registerMods st (registerExt e k) := by
  have same : setMods st (setExt e (setMods st (setExt e k.M))) = setMods st (setExt e k.M) :=
    matrix_ext fun r c => by simp only [cell_setMods, cell_setExt]; split_ifs <;> rfl
  exact congrArg (Interp.mk _) same

theorem registerMods_again (st : Byte) (k : Interp) : registerMods st (registerMods st k) = registerMods st k := by
  have same : setMods st (setMods st k.M) = setMods st k.M :=
    matrix_ext fun r c => by simp only [cell_setMods]; split_ifs <;> rfl
  exact congrArg (Interp.mk _) same

@[simp] theorem detect_switchIf (t : Tables) (st c : Byte) (b : Bool) (ses : Session) :
    detect t st c (switchIf b ses) = detect t st c ses := by
  simp only [detect, switchIf_snapshot]

@[simp] theorem switchIf_again (b : Bool) (ses : Session) : switchIf b (switchIf b ses) = switchIf b ses := by cases b <;> rfl

section
variable {t : Tables} {st c0 : Byte} {k : Interp}

theorem numpadEnter_unmapped (noBit : extMap t c0 = none) :
    numpadEnter t st c0 k = { k with ses := switchIf (detect t st c0 k.ses) k.ses } := by
  simp [numpadEnter, noBit]

/-- In Mode A the general path registers the packet's own code: nothing is remapped, and nothing suppressed (R160, R163). -/
theorem general_of_modeA (modeA : k.ses.currentMode = .a) : general t st c0 k = registerAscii c0 k := by
  have noRemap : tentative t st c0 k.ses = c0 := by simp [tentative, modeA]
  by_cases accepted : detect t st c0 k.ses = true
  · rw [general_accepted (noRemap.symm ▸ accepted), switchIf, if_pos rfl, ← modeA]
  · have notHeld : suppress t c0 k.ses ≠ true := fun held => by simp [((suppress_iff ..).mp held).1] at modeA
    rw [general_rejected (by rw [noRemap]; exact Bool.eq_false_iff.mpr accepted), noRemap, if_neg notHeld]

end

/-- The session that numpad-enter leaves decides as the one before it did (R157). -/
theorem numpadEnter_again (t : Tables) (st c0 : Byte) (k : Interp) :
    registerMods st (numpadEnter t st c0 (registerMods st (numpadEnter t st c0 k))) =
      registerMods st (numpadEnter t st c0 k) := by
  cases bit : extMap t c0 with
  | none =>
    rw [numpadEnter_unmapped bit, numpadEnter_unmapped bit, registerMods_ses, detect_switchIf, switchIf_again]
    exact registerMods_again st { k with ses := switchIf (detect t st c0 k.ses) k.ses }
  | some e =>
    by_cases accepted : SwitchAccepted t st c0 k.ses
    · rw [numpadEnter_accepted bit accepted,
        numpadEnter_accepted (k := registerMods st (registerExt e { k with ses := switchIf true k.ses })) bit accepted]
      exact registerMods_registerExt_again st e { k with ses := switchIf true k.ses }
    · by_cases held : HeldInModeB t c0 k.ses
      · rw [numpadEnter_suppressed accepted held, numpadEnter_suppressed (k := registerMods st k) accepted held, registerMods_again]
      · rw [numpadEnter_kept bit accepted held, numpadEnter_kept (k := registerMods st (registerExt e k)) bit accepted held,
          registerMods_registerExt_again]

/-- After a switch the mode is A, and the original code is registered again; without one the session still decides as before
(R160-R164). -/
theorem general_again (t : Tables) (st c0 : Byte) (k : Interp) :
    registerMods st (general t st c0 (registerMods st (general t st c0 k))) = registerMods st (general t st c0 k) := by
  by_cases accepted : SwitchAccepted t st (tentative t st c0 k.ses) k.ses
  · rw [general_accepted ((detect_iff ..).mpr accepted), general_of_modeA rfl, registerMods_registerAscii_again]
  · by_cases held : HeldInModeB t (tentative t st c0 k.ses) k.ses
    · rw [general_suppressed accepted held, general_suppressed (k := registerMods st k) accepted held, registerMods_again]
    · rw [general_kept accepted held,
        general_kept (k := registerMods st (registerAscii (tentative t st c0 k.ses) k)) accepted held]
      exact registerMods_registerAscii_again ..

/-- Steps 2 to 5 of a packet change nothing after the same steps of the same packet. -/
theorem branch_again (t : Tables) (st c0 : Byte) (k : Interp) :
    registerMods st (branch t st c0 (registerMods st (branch t st c0 k))) = registerMods st (branch t st c0 k) := by
  cases ten : tenkey st with
  | false =>
    by_cases collision : TakesCtrlCollision st c0
    · rw [branch_ctrlCollision collision, branch_ctrlCollision collision, registerMods_registerAscii_again]
    · have path := (takesGeneralPath_iff ten).mpr collision
      rw [branch_general path, branch_general path, general_again]
  | true =>
    cases image : tenkeyMap t c0 with
    | some r => rw [branch_tenkeyImage ten image, branch_tenkeyImage ten image, registerMods_registerAscii_again]
    | none =>
      by_cases enter : c0 = t.numpadEnter
      · rw [branch_numpadEnter ⟨ten, image, enter⟩, branch_numpadEnter ⟨ten, image, enter⟩, numpadEnter_again]
      · cases bit : extMap t c0 with
        | some e =>
          rw [branch_special ten image enter bit, branch_special ten image enter bit, registerMods_registerExt_again]
        | none =>
          rw [branch_tenkeyOther ten image enter bit, branch_tenkeyOther ten image enter bit, registerMods_registerAscii_again]

/-- Settles O50: a repeat clears nothing and runs the steps of the first packet again. -/
theorem repeatOfAPacketChangesNothing : Obligations.RepeatOfAPacketChangesNothing := by
  intro s st a
  have same : modeA s.cfg.tables (asRepeat st) a (modeA s.cfg.tables st a s.interp) = modeA s.cfg.tables st a s.interp :=
    (modeA_asRepeat ..).trans (branch_again ..)
  have sameM := congrArg Interp.M same
  exact ⟨_, _, exec_handleA st a s, exec_handleA (asRepeat st) a _, sameM, congrArg Interp.ses same,
    congrArg Output.changed (decide_eq_false (not_not_intro sameM))⟩

end Sys2Proof.Machine
end

section
/-! Proofs that every operation and every step answers (60_exceptions.md R220, R232), with which kind of value (30_encoding.md R80), and
about a packet or a row just written (41_mailbox.md R141, 20_memory.md R60). -/

namespace Sys2Proof.Machine

/-! ### Steps answer (R220, R232) -/

/-- Settles O10: the idle step. -/
theorem stepWithNothingOfferedKeepsTheState : Obligations.StepWithNothingOfferedKeepsTheState := fun _ idle => step_idle idle

theorem exec_answers (i : Instr) (s : State) : ∃ t, exec i s = .next t := by
  cases i <;> exact ⟨_, rfl⟩

/-- Settles O11: an idle step and a refusal answer a next state themselves, and every operation does. -/
theorem everyOperationAndStepAnswersANextState : Obligations.EveryOperationAndStepAnswersANextState := by
  refine ⟨exec_answers, fun s => ?_⟩
  obtain ⟨-, e⟩ | ⟨o, rest, i, -, -, e⟩ | ⟨o, rest, e', -, -, e⟩ := step_cases s <;> rw [e]
  · exact ⟨_, rfl⟩
  · exact exec_answers i _
  · exact ⟨_, rfl⟩

/-- Settles O14: each operation ends by writing the value it returns; POLL does so by HANDLE's report, or with an empty mailbox by
its own. -/
theorem eachOperationReturnsItsKindOfValue : Obligations.EachOperationReturnsItsKindOfValue := by
  intro s t i h
  cases i with
  | poll => obtain ⟨-, rfl⟩ | ⟨-, rfl⟩ := exec_poll_cases h <;> exact ⟨_, rfl⟩
  | edge | init => cases next_inj h; rfl
  | readRow | handleA | handleB => cases next_inj h; exact ⟨_, rfl⟩

/-! ### A packet published, a row written -/

/-- Settles O31: publishing overwrites and marks ready; taking clears the mark. -/
theorem takeAnswersTheLastPublishedPacketOnce : Obligations.TakeAnswersTheLastPublishedPacketOnce :=
  fun p q m => ⟨take_of_ready (publish_ready q (publish p m)), congrArg Prod.fst (take_of_empty (take_ready m)), take_of_empty⟩

theorem row_writeRow_same (M : Matrix) (r : Fin 19) (v : Row) : (writeRow M r v)[r] = v := by simp [writeRow]

theorem row_writeRow_other {r r' : Fin 19} (other : r ≠ r') (M : Matrix) (v : Row) : (writeRow M r v)[r'] = M[r'] := by
  simp [writeRow, Fin.val_ne_of_ne other]

/-- Settles O39: HANDLE_B writes row 17 and then row 18, and READ_ROW reads the row of its index. -/
theorem readRowSeesTheGameKeysJustHandled : Obligations.ReadRowSeesTheGameKeysJustHandled := by
  intro s g
  have row17 : readRowValue (modeB g s.interp).M 17 = g.extractLsb' 0 16 := by
    rw [readRowValue_row _ (i := 17) (r := 17) rfl, modeB, row_writeRow_other (by decide), row_writeRow_same]
  have row18 : readRowValue (modeB g s.interp).M 18 = (g.extractLsb' 16 8).setWidth 16 := by
    rw [readRowValue_row _ (i := 18) (r := 18) rfl, modeB, row_writeRow_same]
  exact ⟨_, _, _, exec_handleB g s, exec_readRow 17 _, exec_readRow 18 _, congrArg Output.row row17, congrArg Output.row row18⟩

end Sys2Proof.Machine
end
